-- ==== Sys2Proof/Word.lean ====
section
/-! DEFINITION. The word types of the IR link core: a byte, and a clock value of `W` bits.

`W` is the spec's parameter `TS_WIDTH` (00_scope.md R8, decision D1). Every type and definition of the model that a
timestamp touches takes it as an argument; where none is given it is the default, 32 (log 2). -/

namespace Sys2Proof

/-- One byte: the operand of SEND, the shift register, a slot of the queue store (R7 `DATA_WIDTH`). -/
abbrev Byte := BitVec 8

/-- The default of W, the width in bits of every clock value and timestamp (R8, D1). -/
abbrev tsWidth : Nat := 32

/-- A microsecond clock value or timestamp (R47: unsigned, modulo 2^W). -/
abbrev Timestamp (W : Nat := tsWidth) := BitVec W

end Sys2Proof
end

