-- ==== Sys2Proof/Config.lean ====
section
/-! DEFINITION. What is fixed for this hardware: the timing profile and the structural parameters (00_scope.md R5, R6,
R7), which are constants and no state (10_state.md R32); the model parameters of 92_eei_decisions.md with the values
the spec decides; and the free values, which have no body. -/

namespace Sys2Proof.Config

/-! The timing profile, in microseconds (R5), and the pull-back (R6). -/

@[simp] abbrev hdrMark : Nat := 9000
@[simp] abbrev hdrSpace : Nat := 4500
@[simp] abbrev bitMark : Nat := 562
@[simp] abbrev zeroSpace : Nat := 562
@[simp] abbrev oneSpace : Nat := 1687
@[simp] abbrev stopMark : Nat := 562
@[simp] abbrev stopSpace : Nat := 1000
@[simp] abbrev minFrameInterval : Nat := 16000
@[simp] abbrev newFrameGap : Nat := 15000
@[simp] abbrev bitThreshold : Nat := 1500
@[simp] abbrev endPullback : Nat := 1000

/-! The structural parameters (R7). -/

/-- Data bits the transmitter sends per frame. -/
@[simp] abbrev txBits : Nat := 8
/-- Data bits the decoder accumulates before it completes a byte (R125; U1: 7, not 8). -/
@[simp] abbrev rxBits : Nat := 7
/-- Slots of the queue's backing store. -/
@[simp] abbrev qSlots : Nat := 8
/-- Largest value of `count` (U2: 7, although the store has 8 slots). -/
@[simp] abbrev qMax : Nat := 7
/-- Carrier segments per frame. -/
@[simp] abbrev segs : Nat := 20

/-! The model parameters collected at the end of 92_eei_decisions.md. -/

/-- `HOST_ATOMIC` (D3): every EDGE, AVAIL and READ is one indivisible step (R57). With `false` a READ overlapped by a
pushing EDGE is torn (R197, U4); that case is written in Machine/Agents.lean. Log 14. -/
@[simp] abbrev hostAtomic : Bool := true

/-- `TIE_BIT_1500` (D13, U3): the data bit read from a gap of exactly 1500; `false` is 0. Log 13. -/
@[simp] abbrev tieBit1500 : Bool := false

/-- The least width of timestamps the spec asks for (R8, D1): every constant above, and every frame, fits without a wrap. -/
@[simp] abbrev minTsWidth : Nat := 16

/-! Free values: nothing is known of them but their type. Each is applied to the counter `draws` of State. -/

/-- At the n-th simultaneous arrival, whether the edge is taken before the foreground operation (R164, D10). Log 15. -/
opaque freeEdgeFirst : Nat → Bool
/-- The byte a torn READ returns (R197, U4); only with `hostAtomic = false`. Log 14. -/
opaque freeByte : Nat → Byte
/-- The count a torn READ leaves (R197, U4). Log 14. -/
opaque freeCount : Nat → Fin 8
/-- The slots a torn READ leaves (R197, U4). Log 14. -/
opaque freeSlot : Nat → Fin 8 → Byte

end Sys2Proof.Config

namespace Sys2Proof

/-- An index into the queue store: 0 to 7, always computed from `count` (R50). -/
abbrev Slot := Fin Config.qSlots

/-- The index of a carrier segment: 0 to 19, held in 5 bits (R23, R71). -/
abbrev SegIx := Fin Config.segs

end Sys2Proof
end

