-- ==== Sys2Proof/Syntax.lean ====
section
/-! DEFINITION. The operations over timestamps of `W` bits, one constructor per row of spec/opcode_table.json, who may
issue each (60_exceptions.md R168), the device each belongs to (00_scope.md R9), and the ways a command word can fail to
decode. -/

namespace Sys2Proof

/-- The operations of 00_scope.md R9, with the rows of the opcode table that stand below them: the arms of EDGE, the
steps of the transmit sequencer, the reserved codes, and the frame and its symbols on the wire. -/
inductive Instr (W : Nat := tsWidth) where
  /-- `begin()` on the transmitting device (R100). -/
  | beginTx
  /-- `send(byte)` (R101). -/
  | send (b : Byte)
  /-- `begin()` on the receiving device (R120). -/
  | beginRx
  /-- One falling edge with its timestamp (R121). -/
  | edge (t : Timestamp W)
  /-- The new-frame arm of EDGE (R122). -/
  | edgeNewFrame (t : Timestamp W)
  /-- The header-boundary arm of EDGE (R123). -/
  | edgeHeader (t : Timestamp W)
  /-- The data-bit arm of EDGE, with byte completion (R124, R125). -/
  | edgeData (t : Timestamp W)
  /-- `push(value)`, internal to EDGE.DATA (R140). -/
  | push (v : Byte)
  /-- `available()` (R141). -/
  | avail
  /-- `read()` (R142). -/
  | read
  /-- Operation code 110, which names no operation (R82). -/
  | reserved110
  /-- Operation code 111, which names no operation (R82). -/
  | reserved111
  /-- One frame on the wire: `H d7 d6 d5 d4 d3 d2 d1 d0 S` (R70). -/
  | frame (b : Byte)
  /-- The header symbol on the wire (R72). -/
  | symH
  /-- A data bit 0 on the wire (R72). -/
  | sym0
  /-- A data bit 1 on the wire (R72). -/
  | sym1
  /-- The stop symbol on the wire (R72). -/
  | symS
  /-- Sequencer: a SEND is accepted (R102). -/
  | txAccept (b : Byte)
  /-- Sequencer: the spacing wait (R103). -/
  | txWait
  /-- Sequencer: one segment ends, the next starts (R104). -/
  | txSeg
  /-- Sequencer: the frame ends and SEND returns (R106, R107). -/
  | txDone
deriving DecidableEq, Repr

/-- Who may issue an operation (R168; the wire rows are driven by the transmitter alone, R22). -/
inductive Issuer where
  | txForeground
  | rxForeground
  | edgeSource
  | edgeHandler
  | txSequencer
  | nobody
deriving DecidableEq, Repr

variable {W : Nat}

/-- The table "issued by" of R9 and R168. -/
def Instr.issuer : Instr W → Issuer
  | .beginTx => .txForeground
  | .send _ => .txForeground
  | .beginRx => .rxForeground
  | .edge _ => .edgeSource
  | .edgeNewFrame _ => .edgeHandler
  | .edgeHeader _ => .edgeHandler
  | .edgeData _ => .edgeHandler
  | .push _ => .edgeHandler
  | .avail => .rxForeground
  | .read => .rxForeground
  | .reserved110 => .nobody
  | .reserved111 => .nobody
  | .frame _ => .txSequencer
  | .symH => .txSequencer
  | .sym0 => .txSequencer
  | .sym1 => .txSequencer
  | .symS => .txSequencer
  | .txAccept _ => .txSequencer
  | .txWait => .txSequencer
  | .txSeg => .txSequencer
  | .txDone => .txSequencer

/-- The operation runs on the transmitting device (the column "side" of R9). -/
def Instr.onTx (i : Instr W) : Bool :=
  i.issuer = .txForeground || i.issuer = .txSequencer

/-- The operation runs on the receiving device (the column "side" of R9). -/
def Instr.onRx (i : Instr W) : Bool :=
  i.issuer = .rxForeground || i.issuer = .edgeSource || i.issuer = .edgeHandler

/-- Why a command word is no operation of the block (30_encoding.md R81, R82). -/
inductive DecodeError where
  /-- The word has the length of no format (N, B and T are the three there are). -/
  | badLength
  /-- A bit above the format's last bit is set. -/
  | padBits
  /-- The operation code belongs to a format of another length. -/
  | wrongFormat
deriving DecidableEq, Repr

end Sys2Proof
end

