-- ==== Sys2Proof/WellFormed.lean ====
section
/-! DEFINITION. Which terms of `Instr` the rules can give rise to. Every operand of SEND and EDGE is legal
(30_encoding.md R73, R82 (c)), so two checks remain: the operation is named, and PUSH carries what a completed
accumulation can hold. -/

namespace Sys2Proof

variable {W : Nat}

/-- The term names an operation: codes 110 and 111 do not (R82 (a)). -/
def Instr.isNamed : Instr W → Bool
  | .reserved110 => false
  | .reserved111 => false
  | _ => true

/-- PUSH is performed only on completion, with a value of seven bits (R140, R36 (c)). -/
def Instr.operandInRange : Instr W → Bool
  | .push v => v.toNat ≤ 127
  | _ => true

/-- Both checks. -/
def Instr.wellFormed (i : Instr W) : Bool :=
  i.isNamed && i.operandInRange

end Sys2Proof
end

