-- ==== Sys2Proof/Decode.lean ====
section
/-! DEFINITION. Command words: the decoder, the encoder and the layout of a numbered word in bytes (30_encoding.md R81,
R82). A format N word has 3 bits (`op`), a format B word 11 (`op`, then the byte), a format T word 3 + W (`op`, then the
timestamp; 35 for the default W); bit 0 is the least significant bit of the whole word.

DESIGN CHOICE (log 5): the spec gives the words no storage. The model holds a word in the whole bytes it needs (1, 2, and 5
for the default W), byte 0 carrying bits 7..0, the bits above the format's last one zero. Safe: any other word is refused
by name. -/

namespace Sys2Proof

variable {W : Nat}

/-! Words and bytes. -/

/-- Bits of a format N word (R81). -/
abbrev bitsN : Nat := 3
/-- Bits of a format B word (R81). -/
abbrev bitsB : Nat := 3 + 8
/-- Bits of a format T word over timestamps of `W` bits (R81). -/
abbrev bitsT (W : Nat) : Nat := 3 + W

/-- How many whole bytes hold `nbits` bits. -/
def bytesFor (nbits : Nat) : Nat := (nbits + 7) / 8

/-- `n` bytes of `w`, least significant first. -/
def bytesOf : Nat → Nat → List Byte
  | 0, _ => []
  | n + 1, w => BitVec.ofNat 8 w :: bytesOf n (w / 256)

/-- The number that bytes hold, least significant first. -/
def wordOf : List Byte → Nat
  | [] => 0
  | b :: bs => b.toNat + 256 * wordOf bs

/-! The decoder. -/

/-- Why the bits above the operand are no operation code of the format. -/
def badCode (op : Nat) : DecodeError := if op < 8 then .wrongFormat else .padBits

/-- Format N: the code alone. -/
def decodeN (w : Nat) : Except DecodeError (Instr W) :=
  match w with
  | 0b000 => .ok .beginTx
  | 0b010 => .ok .beginRx
  | 0b100 => .ok .avail
  | 0b101 => .ok .read
  | 0b110 => .ok .reserved110
  | 0b111 => .ok .reserved111
  | op => .error (badCode op)

/-- Format B: the code, then 8 operand bits. -/
def decodeB (w : Nat) : Except DecodeError (Instr W) :=
  match w / 2 ^ 8 with
  | 0b001 => .ok (.send (BitVec.ofNat 8 w))
  | op => .error (badCode op)

/-- Format T: the code, then `W` operand bits. -/
def decodeT (w : Nat) : Except DecodeError (Instr W) :=
  match w / 2 ^ W with
  | 0b011 => .ok (.edge (BitVec.ofNat W w))
  | op => .error (badCode op)

/-- The decoder: the length in bytes is the format's. Total on any bytes. -/
def decode (bytes : List Byte) : Except DecodeError (Instr W) :=
  if bytes.length = bytesFor bitsN then decodeN (wordOf bytes)
  else if bytes.length = bytesFor bitsB then decodeB (wordOf bytes)
  else if bytes.length = bytesFor (bitsT W) then decodeT (wordOf bytes)
  else .error .badLength

/-! The encoder. -/

/-- Format N. -/
def encodeN (op : Nat) : List Byte := bytesOf (bytesFor bitsN) op
/-- Format B. -/
def encodeB (op : Nat) (b : Byte) : List Byte := bytesOf (bytesFor bitsB) (op * 2 ^ 8 + b.toNat)
/-- Format T. -/
def encodeT (op : Nat) (t : Timestamp W) : List Byte := bytesOf (bytesFor (bitsT W)) (op * 2 ^ W + t.toNat)

/-- The encoder, from the table of R81; `none` for the rows that have no operation code. -/
def encode : Instr W → Option (List Byte)
  | .beginTx => some (encodeN 0b000)
  | .send b => some (encodeB 0b001 b)
  | .beginRx => some (encodeN 0b010)
  | .edge t => some (encodeT 0b011 t)
  | .edgeNewFrame _ => none
  | .edgeHeader _ => none
  | .edgeData _ => none
  | .push _ => none
  | .avail => some (encodeN 0b100)
  | .read => some (encodeN 0b101)
  | .reserved110 => some (encodeN 0b110)
  | .reserved111 => some (encodeN 0b111)
  | .frame _ => none
  | .symH => none
  | .sym0 => none
  | .sym1 => none
  | .symS => none
  | .txAccept _ => none
  | .txWait => none
  | .txSeg => none
  | .txDone => none

/-! Words as spec/opcode_table.json numbers them. -/

/-- How many bytes hold a word of `nbits` bits: those of the shortest format that has room for it. -/
def wordBytes (W nbits : Nat) : Nat :=
  bytesFor (if nbits ≤ 8 then bitsN else if nbits ≤ 16 then bitsB else bitsT W)

/-- A word numbered as spec/opcode_table.json numbers it, laid out in bytes. -/
def layOut (W nbits w : Nat) : List Byte :=
  bytesOf (wordBytes W nbits) w

/-- What the decoder reads from a word numbered as spec/opcode_table.json numbers it. -/
def decodeTableWord (nbits w : Nat) : Option Instr :=
  (decode (layOut tsWidth nbits w)).toOption

end Sys2Proof
end

