-- ==== Sys2Proof/Machine/State.lean ====
section
/-! DEFINITION. The state of the two blocks (10_state.md R20), the inputs still to be taken and the observations made,
the reasons a step can stop, and the state after reset (10_state.md R45). -/

namespace Sys2Proof.Machine

/-- The command to the CarrierModulator (R22). -/
inductive Carrier where
  | off
  | on
deriving DecidableEq, Repr

/-- The phase of the transmit sequencer (R23). -/
inductive TxPhase where
  | idle
  | wait
  | emit
deriving DecidableEq, Repr

/-- What leaves the block (00_scope.md R11): the carrier command over time, recorded as its changes, the return of each
SEND, and the values AVAIL and READ return (AVAIL's as a number from 0 to 7, D17). -/
inductive Observation (W : Nat := tsWidth) where
  /-- From this TX clock value on, the carrier command has this value. -/
  | carrier (at_ : Timestamp W) (level : Carrier)
  /-- A SEND returned to its caller at this TX clock value (R107). -/
  | sendReturned (at_ : Timestamp W)
  /-- AVAIL returned this number (R141). -/
  | available (n : Fin 8)
  /-- READ returned this byte (R142). -/
  | readByte (b : Byte)
deriving DecidableEq, Repr

/-- What the four agents of 60_exceptions.md R178 present to the block, one indivisible step each (20_memory.md R57). -/
inductive Input (W : Nat := tsWidth) where
  /-- An operation of the foreground, or an edge of the edge source, as its command word (R81). -/
  | op (word : List Byte)
  /-- A foreground operation and a falling edge at the same instant: either order (R164, D10). -/
  | tie (word : List Byte) (t : Timestamp W)
  /-- `SEND b` presented to the segment-level sequencer (R102) instead of taken as one step (R101). -/
  | present (b : Byte)
  /-- The TX clock advances by this many microseconds (R175, D15); the sequencer acts when it is due. -/
  | elapse (micros : Nat)
deriving DecidableEq, Repr

/-- The queue store (20_memory.md R50, R51): the slots that do not hold the reset value, as (index, byte), indices
rising. An unlisted slot reads as 0, the reset value (R45). -/
abbrev Memory := List Host.Cell

/-- The state of both devices over timestamps of `W` bits, with the model's own fields at the end. Plain data. -/
structure State (W : Nat := tsWidth) where
  /-- R21 -/
  lastFrameEndTimestamp : Timestamp W
  /-- R22 -/
  carrier : Carrier
  /-- R23 -/
  txPhase : TxPhase
  /-- R23: the segment in progress -/
  seg : SegIx
  /-- R23: the byte latched from the SEND operand -/
  txByte : Byte
  /-- R23: the clock value at which the current segment ends -/
  segEnd : Timestamp W
  /-- R24 -/
  txEnabled : Bool
  /-- R25 -/
  previousEdgeTimestamp : Timestamp W
  /-- R26 -/
  headerSeen : Bool
  /-- R27: 3 bits -/
  bitCount : Fin 8
  /-- R28 -/
  shiftRegister : Byte
  /-- R29 -/
  buf : Memory
  /-- R30: 3 bits -/
  count : Fin 8
  /-- R31 -/
  rxEnabled : Bool
  /-- Model's own: what the TX device's clock reads (R175). -/
  txNow : Timestamp W
  /-- Model's own: what the agents present from here on, in order (R57, R58). -/
  inputs : List (Input W)
  /-- Model's own: what has left the block, oldest first (R11). -/
  observed : List (Observation W)
  /-- Model's own: how many free values have been drawn. -/
  draws : Nat
deriving DecidableEq, Repr

/-- Why the machine stops with a fault: never. The hardware raises no exception and no operation has a failing case
(60_exceptions.md R160). -/
inductive Fault where
deriving DecidableEq, Repr

/-- Why the model gives a step no meaning. All are safe: the model stops where it could only guess. -/
inductive Refusal where
  /-- Raised by `exec`'s arm of an instruction that has no meaning yet. Safe. -/
  | notModelled (mnemonic : String)
  /-- Raised by the two reserved codes, which name no operation (R82). Safe. -/
  | reservedCode
  /-- Raised by SEND, and by what emits on the wire, while `txEnabled` is false (R24, D6). Safe. -/
  | sendBeforeBeginTx
  /-- Raised by SEND, BEGIN_TX and the wire rows while a SEND is in progress: they cannot be presented then, their
  caller being blocked (R102, D12). Safe. -/
  | txBusy
  /-- Raised by a sequencer step or an arm of EDGE whose condition does not hold (R102 to R106, R122 to R124). Safe. -/
  | stepNotEnabled
  /-- Raised by a step whose command word is no word of R81. Safe. -/
  | undecodable (why : DecodeError)
deriving DecidableEq, Repr

/-- Power-on (70_reset_and_hazards.md R190): the table of 10_state.md R45. The last four fields are the model's own
(DESIGN CHOICE, logs 3, 4, 7 and 15). -/
def State.resetAt (W : Nat) : State W where
  lastFrameEndTimestamp := 0
  carrier := .off
  txPhase := .idle
  seg := 0
  txByte := 0
  segEnd := 0
  txEnabled := false
  previousEdgeTimestamp := 0
  headerSeen := false
  bitCount := 0
  shiftRegister := 0
  buf := []
  count := 0
  rxEnabled := false
  txNow := 0
  inputs := []
  observed := []
  draws := 0

/-- Power-on with timestamps of the default width. -/
def State.reset : State := State.resetAt tsWidth

end Sys2Proof.Machine
end

