-- ==== Sys2Proof/Machine/Operands.lean ====
section
/-! DEFINITION. How operands become durations, levels and bits: timestamp arithmetic (10_state.md R47), the symbols and
segments of a frame (30_encoding.md R70 to R74), and the gap classes of the receiver (30_encoding.md R77 to R79). -/

namespace Sys2Proof.Machine

variable {W : Nat}

/-! Timestamps (R47). -/

/-- `a -w b`: the microseconds from `b` to `a`, modulo 2^W; correct as elapsed time while fewer passed. -/
def elapsed (a b : Timestamp W) : Nat := (a - b).toNat

/-- `t +w d`. -/
def later (t : Timestamp W) (d : Nat) : Timestamp W := t + BitVec.ofNat W d

/-- `t -w d`. -/
def earlier (t : Timestamp W) (d : Nat) : Timestamp W := t - BitVec.ofNat W d

/-- The microseconds still to wait at clock value `now` before a frame may start (R103: the test is `>=`). -/
def spacingLeft (last now : Timestamp W) : Nat := Config.minFrameInterval - elapsed now last

/-! The frame, symbol by symbol (R70, R72). -/

/-- The four symbols of the wire. -/
inductive Sym where
  | H
  | zero
  | one
  | S
deriving DecidableEq, Repr

/-- How long the carrier is on in a symbol (R72). -/
def Sym.mark : Sym → Nat
  | .H => Config.hdrMark
  | .zero => Config.bitMark
  | .one => Config.bitMark
  | .S => Config.stopMark

/-- How long the carrier is off after it (R72). -/
def Sym.space : Sym → Nat
  | .H => Config.hdrSpace
  | .zero => Config.zeroSpace
  | .one => Config.oneSpace
  | .S => Config.stopSpace

/-- The data symbol of bit `i` of the byte (R72, R73). -/
def dataSym (b : Byte) (i : Nat) : Sym := if b.getLsbD i then .one else .zero

/-- `H d7 d6 d5 d4 d3 d2 d1 d0 S` (R70): most significant bit first (R53). -/
def frameSyms (b : Byte) : List Sym :=
  [.H, dataSym b 7, dataSym b 6, dataSym b 5, dataSym b 4, dataSym b 3, dataSym b 2, dataSym b 1, dataSym b 0, .S]

/-! The frame, segment by segment (R71). -/

/-- `level(seg)`: ON if the segment is even. -/
def level (k : SegIx) : Carrier := if k.val % 2 = 0 then .on else .off

/-- `dur(seg, b)`, the closed form of R71. -/
def dur (k : SegIx) (b : Byte) : Nat :=
  if k.val = 0 then Config.hdrMark
  else if k.val = 1 then Config.hdrSpace
  else if k.val = 19 then Config.stopSpace
  else if k.val = 18 then Config.stopMark
  else if k.val % 2 = 0 then Config.bitMark
  else if b.getLsbD (7 - (k.val - 3) / 2) then Config.oneSpace
  else Config.zeroSpace

/-- The last segment, 19. -/
def lastSeg : SegIx := 19

/-- The segment after `k` (R104: taken only while `k <= 18`). -/
def nextSeg (k : SegIx) : SegIx := k + 1

/-! The gap classes (R77, R78): the tests in this order, the first that holds wins. -/

/-- What an edge is taken for. -/
inductive GapClass where
  | newFrame
  | header
  | data
deriving DecidableEq, Repr

/-- The three tests of R121, on the gap and `headerSeen`. -/
def classify (gap : Nat) (headerSeen : Bool) : GapClass :=
  if gap > Config.newFrameGap then .newFrame
  else if headerSeen then .data
  else .header

/-- The data bit of a gap (R78: strictly above the threshold is a 1). At exactly the threshold the spec decides 0
(C4, D13) and names a parameter (U3). Log 13. -/
def dataBit (gap : Nat) : Bool :=
  gap > Config.bitThreshold || (gap = Config.bitThreshold && Config.tieBit1500)

/-- `((shiftRegister << 1) | bit)[7:0]` (R79, R124). -/
def shiftIn (sr : Byte) (bit : Bool) : Byte := (sr <<< 1) ||| (BitVec.ofBool bit).zeroExtend 8

end Sys2Proof.Machine
end

