-- ==== Sys2Proof/Machine/Flags.lean ====
section
/-! DEFINITION. The three flags of the block (10_state.md R34) are the fields `headerSeen`, `txEnabled` and `rxEnabled`
of State: no operation sets a flag as a side effect of arithmetic. Here are the statuses derived from the state, and the
conditions under which the guarded steps are enabled. -/

namespace Sys2Proof.Machine

variable {W : Nat}

/-- *busy* (R34): a SEND is in progress. -/
def State.busy (s : State W) : Bool := s.txPhase ≠ .idle

/-- *empty* (R34). -/
def State.empty (s : State W) : Bool := s.count = 0

/-- *full* (R34). -/
def State.full (s : State W) : Bool := s.count.val = Config.qMax

/-- The gap an edge with timestamp `t` closes (R77, R121). -/
def State.gap (s : State W) (t : Timestamp W) : Nat := elapsed t s.previousEdgeTimestamp

/-- What an edge with timestamp `t` is taken for (R121). -/
def State.gapClass (s : State W) (t : Timestamp W) : GapClass := classify (s.gap t) s.headerSeen

/-- The accumulation is complete once this edge's bit is in (R125). -/
def State.lastBit (s : State W) : Bool := (s.bitCount + 1).val = Config.rxBits

/-- Condition of TX.WAIT's exit (R103): the comparison is `>=`. -/
def State.spacingMet (s : State W) : Bool :=
  elapsed s.txNow s.lastFrameEndTimestamp ≥ Config.minFrameInterval

/-- TX.SEG is enabled (R104). -/
def State.segmentOver (s : State W) : Bool :=
  s.txPhase = .emit && s.seg ≠ lastSeg && s.txNow = s.segEnd

/-- TX.DONE is enabled (R106). -/
def State.frameOver (s : State W) : Bool :=
  s.txPhase = .emit && s.seg = lastSeg && s.txNow = s.segEnd

end Sys2Proof.Machine
end

