-- ==== Sys2Proof/Machine/Ops.lean ====
section
/-! DEFINITION. The named operations the meanings are written over: the queue store (20_memory.md R50, R51), the carrier
and the clock of the transmitter, the steps of the decoder (41_frame_decoder.md R122 to R125), the queue
(42_receive_queue.md R140, R142) and the one event the hardware takes, the falling edge (60_exceptions.md R162 to
R166). -/

namespace Sys2Proof.Machine

variable {W : Nat}

/-! The queue store. -/

/-- What a slot reads as that nothing has written: its reset value (R45). -/
def Memory.unlisted : Byte := 0

/-- `MemRead(i, 1)`. -/
def Memory.read : Memory → Slot → Byte
  | [], _ => Memory.unlisted
  | (a, v) :: m, i => if a = i.val then v else Memory.read m i

/-- The store with slot `i` no longer listed. -/
def Memory.forget : Memory → Slot → Memory
  | [], _ => []
  | (a, v) :: m, i => if a = i.val then Memory.forget m i else (a, v) :: Memory.forget m i

/-- The store with `(i, v)` listed in its place, for a store that does not list `i`. -/
def Memory.place : Memory → Slot → Byte → Memory
  | [], i, v => [(i.val, v)]
  | (a, w) :: m, i, v => if a < i.val then (a, w) :: Memory.place m i v else (i.val, v) :: (a, w) :: m

/-- `MemWrite(i, 1, v)`. -/
def Memory.write (m : Memory) (i : Slot) (v : Byte) : Memory :=
  if v = Memory.unlisted then m.forget i else (m.forget i).place i v

/-- The canonical form: indices strictly rising, all of the store, no slot listed at its unlisted value. -/
abbrev Memory.wf (m : Memory) : Prop :=
  m.Pairwise (fun c d => c.1 < d.1) ∧ ∀ c ∈ m, c.1 < Config.qSlots ∧ c.2 ≠ Memory.unlisted

/-- `for i = n down to 1: buf[i] <- buf[i-1]` (R140), highest index first. -/
def Memory.shiftUp : (n : Nat) → n < Config.qSlots → Memory → Memory
  | 0, _, m => m
  | n + 1, h, m =>
    Memory.shiftUp n (Nat.lt_of_succ_lt h) (m.write ⟨n + 1, h⟩ (m.read ⟨n, Nat.lt_of_succ_lt h⟩))

/-- A store with given slots (for the torn READ of R197, U4). -/
def Memory.ofSlots (f : Fin 8 → Byte) : Memory :=
  (List.finRange 8).foldl (fun m i => Memory.write m i (f i)) []

/-! Observations, the clock and the carrier. -/

/-- Something leaves the block (R11). -/
def State.observe (s : State W) (o : Observation W) : State W :=
  { s with observed := s.observed ++ [o] }

/-- The TX clock advances by `d` microseconds (R47, R175). -/
def State.advance (s : State W) (d : Nat) : State W :=
  { s with txNow := later s.txNow d }

/-- `carrier <- l`; the change, if it is one, is observed at the clock's value (R11, R22). -/
def State.setCarrier (s : State W) (l : Carrier) : State W :=
  { s with
    carrier := l
    observed := s.observed ++ (if s.carrier = l then [] else [.carrier s.txNow l]) }

/-- `carrier <- l` for exactly `d` microseconds (R101, D8). -/
def State.emitSegment (s : State W) (l : Carrier) (d : Nat) : State W :=
  (s.setCarrier l).advance d

/-- One symbol on the wire: its mark, then its space (R71, R72). -/
def State.emitSym (s : State W) (y : Sym) : State W :=
  (s.emitSegment .on y.mark).emitSegment .off y.space

/-- One frame on the wire (R70). -/
def State.emitFrame (s : State W) (b : Byte) : State W :=
  (frameSyms b).foldl State.emitSym s

/-! The transmit sequencer (40_transmitter.md R102 to R106). -/

/-- TX.ACCEPT (R102). -/
def State.accept (s : State W) (b : Byte) : State W :=
  { s with txByte := b, txPhase := .wait }

/-- The segment `k` of the byte in progress starts now: its level and its end (R103, R104). -/
def State.startSegment (s : State W) (k : SegIx) : State W :=
  { s.setCarrier (level k) with
    txPhase := .emit
    seg := k
    segEnd := later s.txNow (dur k s.txByte) }

/-- TX.DONE (R106, R107): the frame's end is recorded 1000 before now (C1, D20), and SEND returns. -/
def State.frameDone (s : State W) : State W :=
  { s with
    lastFrameEndTimestamp := earlier s.txNow Config.endPullback
    txPhase := .idle
    observed := s.observed ++ [.sendReturned s.txNow] }

/-- The state a SEND of `b`, called now, leaves (R101): the wait (R103), the frame (R104, R105), and its end (R106, R107).
The hidden elements are left as the sequencer leaves them (R23, R102). Log 6. -/
def State.sent (s : State W) (b : Byte) : State W :=
  let s₁ := (s.advance (spacingLeft s.lastFrameEndTimestamp s.txNow)).emitFrame b
  State.frameDone { s₁ with txByte := b, seg := lastSeg, segEnd := s₁.txNow }

/-- The transmitter can take a SEND: it has been begun (R24, D6) and none is in progress (R101, R102, D12). -/
def onReadyTx (s s' : State W) : Host.Outcome (State W) Fault Refusal :=
  if s.txEnabled = false then .refused .sendBeforeBeginTx
  else if s.busy then .refused .txBusy
  else .next s'

/-! The decoder (R122 to R125). -/

/-- EDGE.NEWFRAME (R122): the accumulator is not touched yet (C2, D22). -/
def State.newFrame (s : State W) (t : Timestamp W) : State W :=
  { s with headerSeen := false, previousEdgeTimestamp := t }

/-- EDGE.HEADER (R123). -/
def State.headerBoundary (s : State W) (t : Timestamp W) : State W :=
  { s with headerSeen := true, shiftRegister := 0, bitCount := 0, previousEdgeTimestamp := t }

/-- PUSH (R140): the unread entries move up by one, the value goes to the front, the count stops at 7. -/
def State.pushByte (s : State W) (v : Byte) : State W :=
  { s with
    buf := (Memory.shiftUp s.count.val s.count.isLt s.buf).write 0 v
    count := if s.count.val < Config.qMax then s.count + 1 else s.count }

/-- The shift of EDGE.DATA (R124). -/
def State.accumulate (s : State W) (bit : Bool) : State W :=
  { s with shiftRegister := shiftIn s.shiftRegister bit, bitCount := s.bitCount + 1 }

/-- Completion (R125): the accumulated value is pushed, then the accumulator is cleared. -/
def State.complete (s : State W) : State W :=
  { s.pushByte s.shiftRegister with shiftRegister := 0, bitCount := 0 }

/-- EDGE.DATA (R124, R125). -/
def State.dataEdge (s : State W) (t : Timestamp W) : State W :=
  let s' := s.accumulate (dataBit (s.gap t))
  { (if s.lastBit then s'.complete else s') with previousEdgeTimestamp := t }

/-! Taking the one event there is (R162 to R166). -/

/-- The falling edge is delivered (R163): from BEGIN_RX on, and before it no EDGE step is taken (R31, D6). Entry saves
nothing, switches no mode and uses no vector (R165): the handler is the fixed function of R121, and the timestamp its
only operand. -/
def State.takeEdge (s : State W) (t : Timestamp W) : State W :=
  if s.rxEnabled then
    match s.gapClass t with
    | .newFrame => s.newFrame t
    | .header => s.headerBoundary t
    | .data => s.dataEdge t
  else s

/-- The return from the event (R166): there is nothing to restore, and the foreground goes on from the state the edge
left. -/
def State.returnFromEdge (s : State W) : State W := s

/-! The foreground of the queue (R141, R142). -/

/-- The byte READ returns: the sentinel 0 when the queue is empty (R142, R145). -/
def State.oldest (s : State W) : Byte :=
  if s.empty then 0 else s.buf.read (s.count - 1)

/-- READ (R142): only `count` changes; the slot is left as it is (D23). -/
def State.dropOldest (s : State W) : State W :=
  if s.empty then s else { s with count := s.count - 1 }

end Sys2Proof.Machine
end

