-- ==== Sys2Proof/Machine/Agents.lean ====
section
/-! DEFINITION. The step, given the operations, and what it does around them for the inputs that are no plain operation:
time passing while the sequencer is at work (40_transmitter.md R103, R104; 60_exceptions.md R175), and an edge at the same
instant as a foreground operation (60_exceptions.md R164, 70_reset_and_hazards.md R197). -/

namespace Sys2Proof.Machine

variable {W : Nat}

/-! Time. -/

/-- The sequencer's next step and how many microseconds from now it is due: the first clock value that meets the
spacing (R103), or the end of the segment in progress (R104, R106). -/
def State.sequencerNext (s : State W) : Option (Nat × Instr W) :=
  match s.txPhase with
  | .idle => none
  | .wait => some (spacingLeft s.lastFrameEndTimestamp s.txNow, .txWait)
  | .emit => some (elapsed s.segEnd s.txNow, if s.seg = lastSeg then .txDone else .txSeg)

/-- The sequencer's next step, when it falls due within `d` microseconds. -/
def State.sequencerDue (s : State W) (d : Nat) : Option (Nat × Instr W) :=
  s.sequencerNext.filter (fun p => p.1 ≤ d)

/-- The clock advances to the due step, and the rest of the time is still to pass. -/
def State.advanceTo (s : State W) (k d : Nat) (rest : List (Input W)) : State W :=
  { s.advance k with inputs := .elapse (d - k) :: rest }

/-! Simultaneous arrival. -/

/-- The command word of `EDGE t` (R81). -/
def edgeWord (t : Timestamp W) : List Byte := (encode (.edge t)).getD []

/-- The two operations in one of their two orders, each an indivisible step (R57). -/
def inOrder (edgeFirst : Bool) (word : List Byte) (t : Timestamp W) : List (Input W) :=
  if edgeFirst then [.op (edgeWord t), .op word] else [.op word, .op (edgeWord t)]

/-- `EDGE t` completes a byte, and so performs a PUSH (R125). -/
def State.edgePushes (s : State W) (t : Timestamp W) : Bool :=
  s.rxEnabled && s.gapClass t = .data && s.lastBit

/-- A READ overlapped by a pushing EDGE, without exclusion (R197, U4): any byte is returned, and count and slots hold
any values afterwards. -/
def State.tornRead (s : State W) (t : Timestamp W) : State W :=
  { s.takeEdge t with
    buf := Memory.ofSlots (Config.freeSlot s.draws)
    count := Config.freeCount s.draws
    observed := s.observed ++ [.readByte (Config.freeByte s.draws)]
    draws := s.draws + 1 }

/-- An edge arrives at the same instant as a foreground operation. With `atomic` the order is drawn and the two steps
stand first among the inputs; without, a READ and a pushing EDGE overlap. -/
def State.arbitrate (s : State W) (atomic : Bool) (word : List Byte) (t : Timestamp W) (rest : List (Input W)) : State W :=
  if atomic = false ∧ (decode word : Except DecodeError (Instr W)) = .ok .read ∧ s.edgePushes t = true then
    { s.tornRead t with inputs := rest }
  else
    { s with inputs := inOrder (Config.freeEdgeFirst s.draws) word t ++ rest, draws := s.draws + 1 }

/-- Nothing more is presented: the block is idle and stays as it is (R191, D24). -/
def State.idle (s : State W) : State W := s

/-! The step, over the operations `ex`. -/

/-- One indivisible step (20_memory.md R57, 00_scope.md R10): the first input is taken. An operation's command word is
decoded and run; time passes up to the sequencer's next step, which is run, or to its end; a SEND presented to the
sequencer is accepted; a tie is put in order. Log 4. -/
def stepWith (atomic : Bool) (ex : Instr W → State W → Host.Outcome (State W) Fault Refusal) (s : State W) :
    Host.Outcome (State W) Fault Refusal :=
  match s.inputs with
  | [] => .next s.idle
  | .op word :: rest =>
    match decode word with
    | .ok i => ex i { s with inputs := rest }
    | .error e => .refused (.undecodable e)
  | .tie word t :: rest => .next (s.arbitrate atomic word t rest)
  | .present b :: rest => ex (.txAccept b) { s with inputs := rest }
  | .elapse d :: rest =>
    match s.sequencerDue d with
    | some (k, i) => ex i (s.advanceTo k d rest)
    | none => .next { s.advance d with inputs := rest }

end Sys2Proof.Machine
end

