-- ==== Sys2Proof/Machine/Queue.lean ====
section
/-! DEFINITION. The meanings of the ReceiveQueue's operations (42_receive_queue.md): PUSH, AVAIL and READ. -/

namespace Sys2Proof.Machine

variable {W : Nat}

/-- PUSH (R140). Run on its own, in any state, it is what it is inside EDGE.DATA. Log 27. -/
def execPush (v : Byte) (s : State W) : Host.Outcome (State W) Fault Refusal :=
  .next (s.pushByte v)

/-- AVAIL (R141): the number returned is observed, no state of the block changes. -/
def execAvail (s : State W) : Host.Outcome (State W) Fault Refusal :=
  .next (s.observe (.available s.count))

/-- READ (R142): the byte returned is observed; an empty queue returns 0 and is left as it is. -/
def execRead (s : State W) : Host.Outcome (State W) Fault Refusal :=
  .next (s.dropOldest.observe (.readByte s.oldest))

end Sys2Proof.Machine
end

