-- ==== Sys2Proof/Machine/Receiver.lean ====
section
/-! DEFINITION. The meanings of the FrameDecoder's operations (41_frame_decoder.md): BEGIN_RX, EDGE and its three arms. -/

namespace Sys2Proof.Machine

variable {W : Nat}

/-- BEGIN_RX (R120). -/
def execBeginRx (s : State W) : Host.Outcome (State W) Fault Refusal :=
  .next { s with rxEnabled := true }

/-- EDGE (R121). Before BEGIN_RX the edge is not delivered and nothing changes (R31, R161). Log 10. -/
def execEdge (t : Timestamp W) (s : State W) : Host.Outcome (State W) Fault Refusal :=
  .next (s.takeEdge t).returnFromEdge

/-- An arm of EDGE runs only in the state, and with the gap, that R121 selects it for. Log 8. -/
def onArm (c : GapClass) (t : Timestamp W) (s s' : State W) : Host.Outcome (State W) Fault Refusal :=
  if s.rxEnabled = true ∧ s.gapClass t = c then .next s' else .refused .stepNotEnabled

/-- EDGE.NEWFRAME (R122). -/
def execEdgeNewFrame (t : Timestamp W) (s : State W) : Host.Outcome (State W) Fault Refusal :=
  onArm .newFrame t s (s.newFrame t)

/-- EDGE.HEADER (R123). -/
def execEdgeHeader (t : Timestamp W) (s : State W) : Host.Outcome (State W) Fault Refusal :=
  onArm .header t s (s.headerBoundary t)

/-- EDGE.DATA (R124, R125). -/
def execEdgeData (t : Timestamp W) (s : State W) : Host.Outcome (State W) Fault Refusal :=
  onArm .data t s (s.dataEdge t)

end Sys2Proof.Machine
end

