-- ==== Sys2Proof/Machine/Reserved.lean ====
section
/-! DEFINITION. The two reserved operation codes (30_encoding.md R82 (a), D5): they name no operation, and a model
refuses them. -/

namespace Sys2Proof.Machine

variable {W : Nat}

/-- Code 110 (R82). -/
def execReserved110 (_s : State W) : Host.Outcome (State W) Fault Refusal :=
  .refused .reservedCode

/-- Code 111 (R82). -/
def execReserved111 (_s : State W) : Host.Outcome (State W) Fault Refusal :=
  .refused .reservedCode

end Sys2Proof.Machine
end

