-- ==== Sys2Proof/Machine/Transmitter.lean ====
section
/-! DEFINITION. The meanings of the Transmitter's operations (40_transmitter.md): BEGIN_TX, SEND as one operation, and
SEND's four sequencer steps. -/

namespace Sys2Proof.Machine

variable {W : Nat}

/-- BEGIN_TX (R100): `require txPhase == IDLE`. -/
def execBeginTx (s : State W) : Host.Outcome (State W) Fault Refusal :=
  if s.busy then .refused .txBusy
  else .next { s.setCarrier .off with txEnabled := true }

/-- SEND as one operation (R101), called when the clock reads `txNow`. -/
def execSend (b : Byte) (s : State W) : Host.Outcome (State W) Fault Refusal :=
  onReadyTx s (s.sent b)

/-- TX.ACCEPT (R102). -/
def execTxAccept (b : Byte) (s : State W) : Host.Outcome (State W) Fault Refusal :=
  onReadyTx s (s.accept b)

/-- TX.WAIT (R103): the frame starts at the first clock value that meets the spacing; before it, no change. -/
def execTxWait (s : State W) : Host.Outcome (State W) Fault Refusal :=
  if s.txPhase = .wait then
    if s.spacingMet then .next (s.startSegment 0) else .next s
  else .refused .stepNotEnabled

/-- TX.SEG (R104). -/
def execTxSeg (s : State W) : Host.Outcome (State W) Fault Refusal :=
  if s.segmentOver then .next (s.startSegment (nextSeg s.seg)) else .refused .stepNotEnabled

/-- TX.DONE (R106, R107). -/
def execTxDone (s : State W) : Host.Outcome (State W) Fault Refusal :=
  if s.frameOver then .next s.frameDone else .refused .stepNotEnabled

end Sys2Proof.Machine
end

