-- ==== Sys2Proof/Machine/Wire.lean ====
section
/-! DEFINITION. The meanings of the wire rows of the opcode table (30_encoding.md R70 to R72): a frame, and each of its
four symbols, put on the wire from the TX clock's present value on.

DESIGN CHOICE (log 11): the spec gives these rows as formats, emitted only inside a SEND. The model runs each on its own
where a SEND could start: the transmitter begun (D6) and not busy (the carrier is the transmitter's alone, R22). Safe. -/

namespace Sys2Proof.Machine

variable {W : Nat}

/-- FRAME (R70, R71). -/
def execFrame (b : Byte) (s : State W) : Host.Outcome (State W) Fault Refusal :=
  onReadyTx s (s.emitFrame b)

/-- SYM.H (R72). -/
def execSymH (s : State W) : Host.Outcome (State W) Fault Refusal :=
  onReadyTx s (s.emitSym .H)

/-- SYM.0 (R72). -/
def execSym0 (s : State W) : Host.Outcome (State W) Fault Refusal :=
  onReadyTx s (s.emitSym .zero)

/-- SYM.1 (R72). -/
def execSym1 (s : State W) : Host.Outcome (State W) Fault Refusal :=
  onReadyTx s (s.emitSym .one)

/-- SYM.S (R72). -/
def execSymS (s : State W) : Host.Outcome (State W) Fault Refusal :=
  onReadyTx s (s.emitSym .S)

end Sys2Proof.Machine
end

