-- ==== Sys2Proof/Machine/Dispatch.lean ====
section
/-! DEFINITION. One arm per constructor of `Instr`, each a direct call of its meaning. -/

namespace Sys2Proof.Machine

def exec (i : Instr) (s : State) : Host.Outcome State Fault Refusal :=
  match i with
  -- 40_transmitter.md R100, R101
  | .beginTx => Sys2Proof.Machine.execBeginTx s
  | .send b => Sys2Proof.Machine.execSend b s
  -- 41_frame_decoder.md R120 to R125
  | .beginRx => Sys2Proof.Machine.execBeginRx s
  | .edge t => Sys2Proof.Machine.execEdge t s
  | .edgeNewFrame t => Sys2Proof.Machine.execEdgeNewFrame t s
  | .edgeHeader t => Sys2Proof.Machine.execEdgeHeader t s
  | .edgeData t => Sys2Proof.Machine.execEdgeData t s
  -- 42_receive_queue.md R140 to R142
  | .push v => Sys2Proof.Machine.execPush v s
  | .avail => Sys2Proof.Machine.execAvail s
  | .read => Sys2Proof.Machine.execRead s
  -- 30_encoding.md R82
  | .reserved110 => Sys2Proof.Machine.execReserved110 s
  | .reserved111 => Sys2Proof.Machine.execReserved111 s
  -- 30_encoding.md R70 to R72
  | .frame b => Sys2Proof.Machine.execFrame b s
  | .symH => Sys2Proof.Machine.execSymH s
  | .sym0 => Sys2Proof.Machine.execSym0 s
  | .sym1 => Sys2Proof.Machine.execSym1 s
  | .symS => Sys2Proof.Machine.execSymS s
  -- 40_transmitter.md R102 to R106
  | .txAccept b => Sys2Proof.Machine.execTxAccept b s
  | .txWait => Sys2Proof.Machine.execTxWait s
  | .txSeg => Sys2Proof.Machine.execTxSeg s
  | .txDone => Sys2Proof.Machine.execTxDone s

end Sys2Proof.Machine
end

