-- ==== Sys2Proof/Machine/Step.lean ====
section
/-! DEFINITION. One step of the machine, over `exec`, with timestamps of the default width and `HOST_ATOMIC` at its default;
and how the host presents one instruction. Log 4. -/

namespace Sys2Proof.Machine

/-- One indivisible step (20_memory.md R57, 00_scope.md R10). -/
def step (s : State) : Host.Outcome State Fault Refusal :=
  stepWith Config.hostAtomic exec s

/-- The instruction of this table word is what the next step takes: its command word stands first among the inputs. -/
def State.withFetchWord (s : State) (nbits w : Nat) : State :=
  { s with inputs := .op (layOut tsWidth nbits w) :: s.inputs }

end Sys2Proof.Machine
end

