-- ==== Sys2Proof/Machine/Channel.lean ====
section
/-! DEFINITION. The ideal channel between the carrier and the receiver's edge source (92_eei_decisions.md D7,
60_exceptions.md R177). It is no part of the block; statements about a round trip are said through it. Log 23. -/

namespace Sys2Proof.Machine

variable {W : Nat}

/-- `EDGE_AT`: which carrier transition makes a falling edge. -/
inductive EdgeAt where
  | markStart
  | markEnd
deriving DecidableEq, Repr

/-- The level the carrier takes at that transition. -/
def EdgeAt.level : EdgeAt → Carrier
  | .markStart => .on
  | .markEnd => .off

/-- The falling edges of a carrier waveform, each stamped at the same instant on a clock that reads `offset` more. -/
def channelEdges (at_ : EdgeAt) (offset : Timestamp W) : List (Observation W) → List (Timestamp W)
  | [] => []
  | .carrier t l :: os =>
    if l = at_.level then (t + offset) :: channelEdges at_ offset os else channelEdges at_ offset os
  | _ :: os => channelEdges at_ offset os

end Sys2Proof.Machine
end

