-- ==== Sys2Proof/Machine/Width.lean ====
section
/-! DEFINITION. The machine for any width `W` of timestamps, and either value of `HOST_ATOMIC`: the parameters a model takes
as arguments (00_scope.md R8, 92_eei_decisions.md D1, D3). `exec` and `step` have the host's fixed types and are this machine
at the defaults (Sys2Proof/Laws/Exec.lean, `execAt_default`, `stepAt_default`). Log 2. -/

namespace Sys2Proof.Machine

variable {W : Nat}

/-- The operations over timestamps of `W` bits, each by the meaning `exec` calls. -/
def execAt (i : Instr W) (s : State W) : Host.Outcome (State W) Fault Refusal :=
  match i with
  -- 40_transmitter.md R100, R101
  | .beginTx => execBeginTx s
  | .send b => execSend b s
  -- 41_frame_decoder.md R120 to R125
  | .beginRx => execBeginRx s
  | .edge t => execEdge t s
  | .edgeNewFrame t => execEdgeNewFrame t s
  | .edgeHeader t => execEdgeHeader t s
  | .edgeData t => execEdgeData t s
  -- 42_receive_queue.md R140 to R142
  | .push v => execPush v s
  | .avail => execAvail s
  | .read => execRead s
  -- 30_encoding.md R82
  | .reserved110 => execReserved110 s
  | .reserved111 => execReserved111 s
  -- 30_encoding.md R70 to R72
  | .frame b => execFrame b s
  | .symH => execSymH s
  | .sym0 => execSym0 s
  | .sym1 => execSym1 s
  | .symS => execSymS s
  -- 40_transmitter.md R102 to R106
  | .txAccept b => execTxAccept b s
  | .txWait => execTxWait s
  | .txSeg => execTxSeg s
  | .txDone => execTxDone s

/-- One step over timestamps of `W` bits. -/
def stepAt (atomic : Bool) (s : State W) : Host.Outcome (State W) Fault Refusal :=
  stepWith atomic execAt s

/-- The machine with these parameters. -/
def coreAt (W : Nat) (atomic : Bool) : Host.Core where
  State := State W
  Fault := Fault
  Refusal := Refusal
  step := stepAt atomic
  reset := State.resetAt W

end Sys2Proof.Machine
end

