-- ==== Sys2Proof/Safety.lean ====
section
/-! DEFINITION. The terms statements are made in: what every reachable state satisfies (10_state.md R36), runs of
operations, the unread bytes, the waveform of a frame, and the parts of the state that belong to each device. -/

namespace Sys2Proof.Machine

variable {W : Nat}

/-! What is safe: the invariants of R36, and the canonical form of the queue store. -/

/-- R36 (b), (c): between steps fewer than seven bits are accumulated, and the register holds no more than those. -/
abbrev State.accumulatorOk (s : State W) : Prop :=
  s.bitCount.val ≤ 6 ∧ s.shiftRegister.toNat < 2 ^ s.bitCount.val

/-- R36 (d), (e): the carrier is off unless a frame is being emitted, and then it is on exactly in the even segments. -/
abbrev State.carrierOk (s : State W) : Prop :=
  if s.txPhase = .emit then (s.carrier = .on ↔ s.seg.val % 2 = 0) else s.carrier = .off

/-- A SEND is in progress only after BEGIN_TX (R24, R102). -/
abbrev State.begunOk (s : State W) : Prop :=
  s.txPhase ≠ .idle → s.txEnabled = true

/-- The invariant; R36 (a), `count <= 7`, is the type of `count`. -/
structure State.Inv (s : State W) : Prop where
  accumulator : s.accumulatorOk
  carrier : s.carrierOk
  begun : s.begunOk
  store : s.buf.wf

/-! Runs of operations, one whole step each (R57). -/

/-- The operations in order, stopping at the first that does not answer a next state. -/
def execAll : List Instr → State → Host.Outcome State Fault Refusal
  | [], s => .next s
  | i :: is, s =>
    match exec i s with
    | .next s' => execAll is s'
    | .fault f => .fault f
    | .refused r => .refused r

/-- `n` steps of the machine, stopping at the first that does not answer a next state. -/
def steps : Nat → State → Host.Outcome State Fault Refusal
  | 0, s => .next s
  | n + 1, s =>
    match step s with
    | .next s' => steps n s'
    | .fault f => .fault f
    | .refused r => .refused r

/-! The queue as a list (R51): the unread bytes, oldest first. -/

/-- `buf[n-1], ..., buf[0]`. -/
def Memory.oldestFirst (m : Memory) : (n : Nat) → n ≤ Config.qSlots → List Byte
  | 0, _ => []
  | n + 1, h => Memory.read m ⟨n, h⟩ :: Memory.oldestFirst m n (Nat.le_of_succ_le h)

/-- The unread bytes in the order READ returns them. -/
def State.unread (s : State W) : List Byte := s.buf.oldestFirst s.count.val (Nat.le_of_lt s.count.isLt)

/-! The waveform of a frame (R71, R108), from the closed forms of `level` and `dur`. -/

/-- The clock value at which segment `k` of a frame begun at `t0` starts. -/
def segStart (t0 : Timestamp W) (b : Byte) (k : SegIx) : Timestamp W :=
  later t0 (((List.finRange Config.segs).filter (fun i => i.val < k.val)).map (fun i => dur i b)).sum

/-- `D(b)` (R74): the sum of the twenty durations. -/
def frameDuration (b : Byte) : Nat := ((List.finRange Config.segs).map (fun i => dur i b)).sum

/-- The carrier changes of a frame begun at `t0`. -/
def frameWave (t0 : Timestamp W) (b : Byte) : List (Observation W) :=
  (List.finRange Config.segs).map (fun k => .carrier (segStart t0 b k) (level k))

/-- The number of 1 bits of a byte. -/
def popcount (b : Byte) : Nat := ((List.range 8).filter (fun i => b.getLsbD i)).length

/-- The clock value at which a SEND called now starts its header mark (R101, R103). -/
def State.sendStart (s : State W) : Timestamp W := later s.txNow (spacingLeft s.lastFrameEndTimestamp s.txNow)

/-- The edges that close the given gaps, one after the other, the first of them measured from `t` (R77). -/
def edgesFrom (t : Timestamp W) : List Nat → List (Timestamp W)
  | [] => []
  | g :: gs => later t g :: edgesFrom (later t g) gs

/-- The bit of a data gap (R78): 1 above 1500. -/
def gapBit (gap : Nat) : Nat := if 1500 < gap then 1 else 0

/-- The last seven entries: what the queue retains (R144). -/
def lastSeven (l : List Byte) : List Byte := l.drop (l.length - Config.qMax)

/-- What has left the block in `t` and had not in `s`. -/
def State.observedSince (s t : State W) : List (Observation W) := t.observed.drop s.observed.length

/-! The two devices (R20). -/

/-- `s` with the receiver's state taken from `r`. -/
def State.withRx (s r : State W) : State W :=
  { s with
    previousEdgeTimestamp := r.previousEdgeTimestamp
    headerSeen := r.headerSeen
    bitCount := r.bitCount
    shiftRegister := r.shiftRegister
    buf := r.buf
    count := r.count
    rxEnabled := r.rxEnabled }

/-- `s` with the transmitter's state, and its clock, taken from `r`. -/
def State.withTx (s r : State W) : State W :=
  { s with
    lastFrameEndTimestamp := r.lastFrameEndTimestamp
    carrier := r.carrier
    txPhase := r.txPhase
    seg := r.seg
    txByte := r.txByte
    segEnd := r.segEnd
    txEnabled := r.txEnabled
    txNow := r.txNow }

end Sys2Proof.Machine
end

