-- ==== Sys2Proof/Certificates/Slice0/Obligations.lean ====
section
/-! DEFINITION. The statements for the provers. Each docstring names the rule of spec/ it says; the expected values are
written from the rules, not from the meanings. -/

open Sys2Proof Sys2Proof.Machine

/-! ## Reset, encodings, the step -/

/-- The reset table (10_state.md R45): every element the spec gives, and every slot of the queue store. -/
def Obligations.ResetIsIdleAndEmpty : Prop :=
  State.reset.lastFrameEndTimestamp = 0 ∧ State.reset.carrier = .off ∧ State.reset.txPhase = .idle ∧
  State.reset.seg = 0 ∧ State.reset.txByte = 0 ∧ State.reset.segEnd = 0 ∧ State.reset.txEnabled = false ∧
  State.reset.previousEdgeTimestamp = 0 ∧ State.reset.headerSeen = false ∧ State.reset.bitCount = 0 ∧
  State.reset.shiftRegister = 0 ∧ (∀ i : Slot, State.reset.buf.read i = 0) ∧ State.reset.count = 0 ∧
  State.reset.rxEnabled = false

/-- Every word of the scripts P1, P2 and P3 of 95_test_vectors.md, and the reserved codes, decode as written there. The
codes are the spec's numbering (decision D5), the bytes a word is held in the model's choice (log 5). -/
def Obligations.ScriptWordsDecode : Prop :=
  decodeTableWord 3 0b000 = some .beginTx ∧ decodeTableWord 11 0x1AC = some (.send 0xAC) ∧
  decodeTableWord 11 0x100 = some (.send 0x00) ∧ decodeTableWord 11 0x1FF = some (.send 0xFF) ∧
  decodeTableWord 3 0b010 = some .beginRx ∧
  decodeTableWord 35 0x300004E20 = some (.edge 20000) ∧ decodeTableWord 35 0x3000082DC = some (.edge 33500) ∧
  decodeTableWord 35 0x300008BA5 = some (.edge 35749) ∧ decodeTableWord 35 0x300009009 = some (.edge 36873) ∧
  decodeTableWord 35 0x3000098D2 = some (.edge 39122) ∧ decodeTableWord 35 0x300009D36 = some (.edge 40246) ∧
  decodeTableWord 35 0x30000A5FF = some (.edge 42495) ∧ decodeTableWord 35 0x30000AEC8 = some (.edge 44744) ∧
  decodeTableWord 35 0x30000B32C = some (.edge 45868) ∧ decodeTableWord 35 0x30000B790 = some (.edge 46992) ∧
  decodeTableWord 3 0b100 = some .avail ∧
  decodeTableWord 3 0b101 = some .read ∧ decodeTableWord 3 0b110 = some .reserved110 ∧
  decodeTableWord 3 0b111 = some .reserved111

/-- The formats of 30_encoding.md R81, with every operand: `ooo bbbbbbbb` is SEND b, `ooo t...t` is EDGE t
(decision D5; the bytes a word is held in are the model's choice, log 5). -/
def Obligations.FormatsCarryEveryOperand : Prop :=
  (∀ b : Byte, decodeTableWord 11 (0b001 * 2 ^ 8 + b.toNat) = some (.send b)) ∧
  (∀ t : Timestamp, decodeTableWord 35 (0b011 * 2 ^ 32 + t.toNat) = some (.edge t))

/-- Decoding and encoding agree in both directions, at every width of timestamps the spec asks for (00_scope.md R8: at least
16), for every instruction and every bytes: a word decodes to an instruction exactly when it is that instruction's encoding
(the bytes of a word: the model's choice, log 5). -/
def Obligations.DecodeEncodeAgree : Prop :=
  ∀ (W : Nat) (i : Instr W) (w : List Byte), 16 ≤ W → (decode w = .ok i ↔ encode i = some w)

/-- A step whose first input is a command word runs the decoded instruction on the state with that input taken; and a
fetched table word is run on the state itself. The list of inputs is the model's choice (log 4). -/
def Obligations.StepRunsDecodedInstruction : Prop :=
  (∀ (s : State) (w : List Byte) (rest : List Input) (i : Instr),
    s.inputs = .op w :: rest → decode w = .ok i → step s = exec i { s with inputs := rest }) ∧
  (∀ (s : State) (nbits w : Nat) (i : Instr),
    decodeTableWord nbits w = some i → step (s.withFetchWord nbits w) = exec i s)

/-- Time passes exactly (40_transmitter.md R103, R104, R106; D8): while the clock advances by `d`, an idle transmitter
does nothing; the spacing wait ends at the first clock value that meets it, a segment ends when the clock reads
`segEnd`, and nothing happens before. The input `elapse` is the model's choice (log 12). -/
def Obligations.SequencerActsExactlyOnTime : Prop :=
  ∀ (s : State) (d : Nat) (rest : List Input), s.inputs = .elapse d :: rest →
    (s.txPhase = .idle →
      step s = .next { s with txNow := s.txNow + BitVec.ofNat 32 d, inputs := rest }) ∧
    (∀ k, s.txPhase = .wait → 16000 - (s.txNow - s.lastFrameEndTimestamp).toNat = k → k ≤ d →
      ∃ t, step s = .next t ∧ t.txNow = s.txNow + BitVec.ofNat 32 k ∧ t.txPhase = .emit ∧ t.seg = 0 ∧
        t.carrier = .on ∧ t.segEnd = t.txNow + 9000 ∧ t.inputs = .elapse (d - k) :: rest) ∧
    (∀ k, s.txPhase = .emit → s.seg.val < 19 → (s.segEnd - s.txNow).toNat = k → k ≤ d →
      ∃ t, step s = .next t ∧ t.txNow = s.segEnd ∧ t.txPhase = .emit ∧ t.seg.val = s.seg.val + 1 ∧
        t.carrier = level t.seg ∧ t.segEnd = s.segEnd + BitVec.ofNat 32 (dur t.seg s.txByte) ∧
        t.inputs = .elapse (d - k) :: rest) ∧
    (∀ k, s.txPhase = .emit → s.seg.val = 19 → (s.segEnd - s.txNow).toNat = k → k ≤ d →
      ∃ t, step s = .next t ∧ t.txNow = s.segEnd ∧ t.txPhase = .idle ∧
        t.lastFrameEndTimestamp = s.segEnd - 1000 ∧ t.inputs = .elapse (d - k) :: rest) ∧
    ((s.txPhase = .wait → d < 16000 - (s.txNow - s.lastFrameEndTimestamp).toNat) →
      (s.txPhase = .emit → d < (s.segEnd - s.txNow).toNat) →
      step s = .next { s with txNow := s.txNow + BitVec.ofNat 32 d, inputs := rest })

/-- An edge at the same instant as a foreground operation: either order of the two whole steps (60_exceptions.md R164),
and nothing else changes but the counter of draws. The order is a free value (log 15). -/
def Obligations.TieTakesEitherOrder : Prop :=
  ∀ (s : State) (w : List Byte) (t : Timestamp) (rest : List Input), s.inputs = .tie w t :: rest →
    ∃ e u, decode e = .ok (.edge t) ∧ step s = .next { s with inputs := u, draws := s.draws + 1 } ∧
      (u = .op e :: .op w :: rest ∨ u = .op w :: .op e :: rest)

/-- READ against a completing edge at the same instant (script P5 of 95_test_vectors.md): READ first returns the
sentinel and leaves the byte queued, the edge first lets READ return it; the decoder ends the same. -/
def Obligations.TiedReadSeesByteOrSentinel : Prop :=
  ∀ (s : State) (t : Timestamp), s.rxEnabled = true → s.count = 0 → s.headerSeen = true → s.bitCount = 6 →
    (t - s.previousEdgeTimestamp).toNat ≤ 15000 →
    ∃ v a b, execAll [.edge t, .read] s = .next a ∧ execAll [.read, .edge t] s = .next b ∧
      a.observed = s.observed ++ [.readByte v] ∧ a.count = 0 ∧
      b.observed = s.observed ++ [.readByte 0] ∧ b.unread = [v] ∧
      a.headerSeen = b.headerSeen ∧ a.bitCount = b.bitCount ∧ a.shiftRegister = b.shiftRegister ∧
      a.previousEdgeTimestamp = b.previousEdgeTimestamp

/-- Without exclusion (`HOST_ATOMIC = false`, 70_reset_and_hazards.md R197, U4) a READ overlapped by a pushing edge
still leaves the decoder and the transmitter as the edge alone would; what it returns, the count and the slots are free
values, of which nothing is said (log 14). -/
def Obligations.TornReadLeavesTheDecoderDefined : Prop :=
  ∀ (s : State) (t : Timestamp) (rest : List Input), s.rxEnabled = true → s.headerSeen = true → s.bitCount = 6 →
    (t - s.previousEdgeTimestamp).toNat ≤ 15000 →
    ∃ m c v, s.arbitrate false [0b101] t rest =
      { s with
        buf := m, count := c, observed := s.observed ++ [.readByte v], draws := s.draws + 1, inputs := rest,
        bitCount := 0, shiftRegister := 0, previousEdgeTimestamp := t }

/-! ## The transmitter -/

/-- BEGIN_TX (40_transmitter.md R100): the carrier off and `txEnabled` true, nothing else; a second one changes nothing
more. -/
def Obligations.BeginTxSwitchesTheCarrierOff : Prop :=
  ∀ s : State, s.txPhase = .idle →
    exec .beginTx s = .next { s with
      carrier := .off, txEnabled := true,
      observed := s.observed ++ (if s.carrier = .on then [.carrier s.txNow .off] else []) } ∧
    (∀ t, exec .beginTx s = .next t → exec .beginTx t = .next t)

/-- A SEND before BEGIN_TX is refused, and BEGIN_TX and SEND are refused while one is in progress (10_state.md R24,
decisions D6 and D12; that the model refuses the busy cases is its choice, log 9). -/
def Obligations.SendNeedsABegunIdleTransmitter : Prop :=
  ∀ (b : Byte) (s : State),
    (s.txEnabled = false → exec (.send b) s = .refused .sendBeforeBeginTx) ∧
    (s.txEnabled = true → s.txPhase ≠ .idle → exec (.send b) s = .refused .txBusy) ∧
    (s.txPhase ≠ .idle → exec .beginTx s = .refused .txBusy)

/-- SEND as one operation (40_transmitter.md R101): the wait, the twenty segments, the recorded frame end and the
return. That the hidden elements end as the sequencer leaves them is the model's choice (log 6), and so is the form of
the list of observations (log 7). -/
def Obligations.SendEmitsOneFrame : Prop :=
  ∀ (b : Byte) (s : State) (ts te : Timestamp), s.txEnabled = true → s.txPhase = .idle → s.carrier = .off →
    ts = s.txNow + BitVec.ofNat 32 (16000 - (s.txNow - s.lastFrameEndTimestamp).toNat) →
    te = ts + BitVec.ofNat 32 (24054 + 1125 * popcount b) →
    exec (.send b) s = .next { s with
      txNow := te, lastFrameEndTimestamp := te - 1000, txByte := b, seg := 19, segEnd := te,
      observed := s.observed ++ frameWave ts b ++ [.sendReturned te] }

/-- The start of the frame (40_transmitter.md R101, R103): the first clock value at or after the call at which the
difference is at least 16000; without a wrap the later of the call and `lastFrameEndTimestamp + 16000`. -/
def Obligations.SendStartsAtTheFirstMoment : Prop :=
  ∀ s : State, (∃ k, k ≤ 16000 ∧ s.sendStart = s.txNow + BitVec.ofNat 32 k ∧
      16000 ≤ (s.sendStart - s.lastFrameEndTimestamp).toNat ∧
      ∀ j, j < k → (s.txNow + BitVec.ofNat 32 j - s.lastFrameEndTimestamp).toNat < 16000) ∧
    (s.lastFrameEndTimestamp.toNat ≤ s.txNow.toNat → s.lastFrameEndTimestamp.toNat + 16000 < 2 ^ 32 →
      s.sendStart.toNat = max s.txNow.toNat (s.lastFrameEndTimestamp.toNat + 16000))

/-- TX.ACCEPT (40_transmitter.md R102). -/
def Obligations.AcceptLatchesTheByte : Prop :=
  ∀ (b : Byte) (s : State), s.txEnabled = true → s.txPhase = .idle →
    exec (.txAccept b) s = .next { s with txByte := b, txPhase := .wait }

/-- TX.WAIT (40_transmitter.md R103): at a difference of at least 16000 the header mark starts, below it nothing
changes. -/
def Obligations.WaitEndsAtSixteenThousand : Prop :=
  ∀ s : State, s.txPhase = .wait → s.carrier = .off →
    exec .txWait s = .next (if 16000 ≤ (s.txNow - s.lastFrameEndTimestamp).toNat then
      { s with
        txPhase := .emit, seg := 0, carrier := .on, segEnd := s.txNow + 9000,
        observed := s.observed ++ [.carrier s.txNow .on] }
      else s)

/-- TX.SEG (40_transmitter.md R104): at `segEnd` the next segment starts, at its level and for its duration. -/
def Obligations.SegmentsFollowOneAnother : Prop :=
  ∀ (s : State) (k : SegIx), s.txPhase = .emit → s.txNow = s.segEnd → k.val = s.seg.val + 1 →
    s.carrierOk →
    exec .txSeg s = .next { s with
      seg := k, carrier := if k.val % 2 = 0 then .on else .off,
      segEnd := s.txNow + BitVec.ofNat 32 (dur k s.txByte),
      observed := s.observed ++ [.carrier s.txNow (if k.val % 2 = 0 then .on else .off)] }

/-- TX.DONE (40_transmitter.md R106, R107): the recorded end is 1000 before now, the phase is idle, SEND returns. -/
def Obligations.FrameEndIsPulledBack : Prop :=
  ∀ s : State, s.txPhase = .emit → s.seg = 19 → s.txNow = s.segEnd →
    exec .txDone s = .next { s with
      lastFrameEndTimestamp := s.txNow - 1000, txPhase := .idle,
      observed := s.observed ++ [.sendReturned s.txNow] }

/-- The one-step SEND (R101) and the sequencer's run (R102 to R106) give the same waveform, the same return and the same
final state: a SEND presented to the sequencer, and then exactly the time it takes, is 23 steps of the machine. The inputs
`present` and `elapse`, and with them the number of steps, are the model's choice (logs 4, 12); that SEND as one step leaves
the hidden elements so is log 6. -/
def Obligations.SequencerRunEqualsSend : Prop :=
  ∀ (b : Byte) (s : State) (rest : List Input) (time : Nat), s.txEnabled = true → s.txPhase = .idle →
    time = 16000 - (s.txNow - s.lastFrameEndTimestamp).toNat + (24054 + 1125 * popcount b) →
    steps 23 { s with inputs := .present b :: .elapse time :: rest } = exec (.send b) { s with inputs := rest }

/-- How long SEND blocks its caller (40_transmitter.md R107, R111): the wait (0 to 16000) and the frame, 24054 to
49054 microseconds in all; SEND returns at the end and hands back nothing but its return. -/
def Obligations.SendBlocksForABoundedTime : Prop :=
  ∀ (b : Byte) (s t : State), exec (.send b) s = .next t →
    24054 ≤ (t.txNow - s.txNow).toNat ∧ (t.txNow - s.txNow).toNat ≤ 49054 ∧
    (s.sendStart - s.txNow).toNat ≤ 16000 ∧ 24054 + 1125 * popcount b ≤ 33054 ∧
    (t.txNow - s.txNow).toNat = (s.sendStart - s.txNow).toNat + (24054 + 1125 * popcount b) ∧
    t.observed.getLast? = some (.sendReturned t.txNow)

/-- Back-to-back sends (40_transmitter.md R109): called at the return, the next SEND waits exactly 15000 and its header
mark starts 16000 after the stop mark's end; called 15000 or more later it does not wait. -/
def Obligations.BackToBackSendWaitsFifteenThousand : Prop :=
  ∀ (b₁ b₂ : Byte) (s t : State), exec (.send b₁) s = .next t →
    t.sendStart = t.txNow + 15000 ∧
    (t.sendStart - t.lastFrameEndTimestamp).toNat = 16000 ∧
    (t.sendStart - s.sendStart).toNat = 24054 + 1125 * popcount b₁ + 15000 ∧
    (∀ d, 15000 ≤ d → d + 1000 < 2 ^ 32 →
      ({ t with txNow := t.txNow + BitVec.ofNat 32 d } : State).sendStart = t.txNow + BitVec.ofNat 32 d) ∧
    ∃ u, exec (.send b₂) t = .next u ∧ u.txNow = t.txNow + 15000 + BitVec.ofNat 32 (24054 + 1125 * popcount b₂)

/-- Minimum spacing (40_transmitter.md R110): whatever happens in between, as long as the recorded frame end stands, the
next header mark starts at least 16000 after the end of the stop mark. -/
def Obligations.HeaderMarksKeepTheirDistance : Prop :=
  ∀ (b : Byte) (s t u : State) (stopMarkEnd : Timestamp), exec (.send b) s = .next t →
    stopMarkEnd = s.sendStart + BitVec.ofNat 32 (24054 + 1125 * popcount b - 1000) →
    u.lastFrameEndTimestamp = t.lastFrameEndTimestamp →
    16000 ≤ (u.sendStart - stopMarkEnd).toNat

/-! ## The wire -/

/-- Frame duration (30_encoding.md R74): the sum of the twenty durations. -/
def Obligations.FrameDurationByOnes : Prop :=
  ∀ b : Byte, frameDuration b = 13500 + 8 * 562 + (562 * (8 - popcount b) + 1687 * popcount b) + 1562 ∧
    frameDuration b = 24054 + 1125 * popcount b

/-- FRAME (30_encoding.md R70, R71): the symbols `H d7 ... d0 S` one after the other are the twenty segments of R71's
closed form. Where it may be run on its own is the model's choice (log 11). -/
def Obligations.FrameIsTwentySegments : Prop :=
  ∀ (b : Byte) (s : State), s.txEnabled = true → s.txPhase = .idle → s.carrier = .off →
    exec (.frame b) s = .next { s with
      txNow := s.txNow + BitVec.ofNat 32 (24054 + 1125 * popcount b),
      observed := s.observed ++ frameWave s.txNow b }

/-- The four symbols (30_encoding.md R72): mark, space, total. Where one may be run on its own is the model's choice
(log 11). -/
def Obligations.SymbolsHaveTheirDurations : Prop :=
  ∀ s : State, s.txEnabled = true → s.txPhase = .idle → s.carrier = .off →
    exec .symH s = .next { s with
      txNow := s.txNow + 13500,
      observed := s.observed ++ [.carrier s.txNow .on, .carrier (s.txNow + 9000) .off] } ∧
    exec .sym0 s = .next { s with
      txNow := s.txNow + 1124,
      observed := s.observed ++ [.carrier s.txNow .on, .carrier (s.txNow + 562) .off] } ∧
    exec .sym1 s = .next { s with
      txNow := s.txNow + 2249,
      observed := s.observed ++ [.carrier s.txNow .on, .carrier (s.txNow + 562) .off] } ∧
    exec .symS s = .next { s with
      txNow := s.txNow + 1562,
      observed := s.observed ++ [.carrier s.txNow .on, .carrier (s.txNow + 562) .off] }

/-- A frame is its ten symbols (30_encoding.md R70): FRAME is SYM.H, the eight data symbols from bit 7 to bit 0, and
SYM.S, run one after the other. That these run as operations of their own, and where each is refused, is the model's
choice (log 11). -/
def Obligations.FrameIsTenSymbols : Prop :=
  ∀ (b : Byte) (s : State),
    exec (.frame b) s = execAll
      ([.symH] ++ [7, 6, 5, 4, 3, 2, 1, 0].map (fun i => if b.getLsbD i then Instr.sym1 else Instr.sym0) ++ [.symS]) s

/-! ## The frame decoder -/

/-- BEGIN_RX (41_frame_decoder.md R120): `rxEnabled` true and nothing else, at any time. -/
def Obligations.BeginRxArmsTheEdgeSource : Prop :=
  ∀ s : State, exec .beginRx s = .next { s with rxEnabled := true } ∧
    exec .beginRx { s with rxEnabled := true } = .next { s with rxEnabled := true }

/-- EDGE (41_frame_decoder.md R121): exactly one arm, chosen by the tests in this order; every arm ends with
`previousEdgeTimestamp` at the edge, and the whole is one step. -/
def Obligations.EdgeRunsExactlyOneArm : Prop :=
  ∀ (t : Timestamp) (s : State), s.rxEnabled = true →
    exec (.edge t) s =
      (if 15000 < (t - s.previousEdgeTimestamp).toNat then exec (.edgeNewFrame t) s
       else if s.headerSeen = false then exec (.edgeHeader t) s
       else exec (.edgeData t) s) ∧
    ∃ u, exec (.edge t) s = .next u ∧ u.previousEdgeTimestamp = t

/-- Before BEGIN_RX no EDGE step is taken: nothing changes (10_state.md R31, decision D6, log 10). -/
def Obligations.EdgeBeforeBeginRxIsNotDelivered : Prop :=
  ∀ (t : Timestamp) (s : State), s.rxEnabled = false → exec (.edge t) s = .next s

/-- EDGE.NEWFRAME (41_frame_decoder.md R122): two elements are written, the accumulator is not
(`bitCount`: decision D22). -/
def Obligations.NewFrameLeavesTheAccumulator : Prop :=
  ∀ (t : Timestamp) (s : State), s.rxEnabled = true → 15000 < (t - s.previousEdgeTimestamp).toNat →
    exec (.edgeNewFrame t) s = .next { s with headerSeen := false, previousEdgeTimestamp := t }

/-- EDGE.HEADER (41_frame_decoder.md R123): any gap of at most 15000 when no header was seen. -/
def Obligations.HeaderBoundaryClearsTheAccumulator : Prop :=
  ∀ (t : Timestamp) (s : State), s.rxEnabled = true → (t - s.previousEdgeTimestamp).toNat ≤ 15000 →
    s.headerSeen = false →
    exec (.edgeHeader t) s = .next { s with
      headerSeen := true, shiftRegister := 0, bitCount := 0, previousEdgeTimestamp := t }

/-- EDGE.DATA, the shift (41_frame_decoder.md R124): the register doubles and takes the bit, which is 1 for a gap above
1500; the count goes up by one. -/
def Obligations.DataEdgeShiftsOneBit : Prop :=
  ∀ (t : Timestamp) (s : State) (n : Fin 8), s.rxEnabled = true → (t - s.previousEdgeTimestamp).toNat ≤ 15000 →
    s.headerSeen = true → n.val = s.bitCount.val + 1 → n.val ≤ 6 →
    exec (.edgeData t) s = .next { s with
      shiftRegister := BitVec.ofNat 8 (2 * s.shiftRegister.toNat + gapBit (t - s.previousEdgeTimestamp).toNat),
      bitCount := n, previousEdgeTimestamp := t }

/-- Completion (41_frame_decoder.md R125): the seventh bit pushes the register as it then stands, 0 to 127 in every state
that R36 allows, and clears the accumulator; the header stays seen. -/
def Obligations.SeventhBitCompletesTheByte : Prop :=
  ∀ (t : Timestamp) (s : State) (v : Byte), s.rxEnabled = true → (t - s.previousEdgeTimestamp).toNat ≤ 15000 →
    s.headerSeen = true → s.bitCount = 6 →
    v = BitVec.ofNat 8 (2 * s.shiftRegister.toNat + gapBit (t - s.previousEdgeTimestamp).toNat) →
    (s.accumulatorOk → v.toNat ≤ 127) ∧
    ∃ u, exec (.push v) s = .next u ∧ u.headerSeen = true ∧
      exec (.edgeData t) s = .next { u with shiftRegister := 0, bitCount := 0, previousEdgeTimestamp := t }

/-- Seven data edges make one byte, first bit most significant, and leave the decoder ready for the next seven
(30_encoding.md R79, 41_frame_decoder.md R128). -/
def Obligations.SevenGapsMakeAByte : Prop :=
  ∀ (s : State) (g₆ g₅ g₄ g₃ g₂ g₁ g₀ : Nat), s.rxEnabled = true → s.headerSeen = true → s.bitCount = 0 →
    s.shiftRegister = 0 → (∀ g ∈ [g₆, g₅, g₄, g₃, g₂, g₁, g₀], g ≤ 15000) →
    ∃ u v, execAll ((edgesFrom s.previousEdgeTimestamp [g₆, g₅, g₄, g₃, g₂, g₁, g₀]).map .edge) s = .next u ∧
      exec (.push (BitVec.ofNat 8 (gapBit g₆ * 64 + gapBit g₅ * 32 + gapBit g₄ * 16 + gapBit g₃ * 8 + gapBit g₂ * 4 +
        gapBit g₁ * 2 + gapBit g₀))) s = .next v ∧
      u.buf = v.buf ∧ u.count = v.count ∧ u.headerSeen = true ∧ u.bitCount = 0 ∧ u.shiftRegister = 0

/-- New-frame reset (41_frame_decoder.md R127): once an edge has closed a gap above 15000, nothing accumulated before it
can reach the queue or the application, whatever operations follow. -/
def Obligations.StaleBitsNeverReachTheQueue : Prop :=
  ∀ (is : List Instr) (t : Timestamp) (s : State) (sr : Byte) (n : Fin 8), s.rxEnabled = true →
    15000 < (t - s.previousEdgeTimestamp).toNat →
    ∀ u, execAll (.edge t :: is) s = .next u →
    ∃ v, execAll (.edge t :: is) { s with shiftRegister := sr, bitCount := n } = .next v ∧
      v.buf = u.buf ∧ v.count = u.count ∧ v.observed = u.observed ∧ v.headerSeen = u.headerSeen ∧
      v.previousEdgeTimestamp = u.previousEdgeTimestamp

/-! ## The receive queue -/

/-- PUSH (42_receive_queue.md R140): the value at the front, the unread entries one up, no other slot written, the count
stopping at 7. -/
def Obligations.PushInsertsAtTheFront : Prop :=
  ∀ (v : Byte) (s : State), ∃ t, exec (.push v) s = .next t ∧
    t.buf.read 0 = v ∧
    (∀ i j : Slot, i.val = j.val + 1 → j.val < s.count.val → t.buf.read i = s.buf.read j) ∧
    (∀ i : Slot, s.count.val < i.val → t.buf.read i = s.buf.read i) ∧
    t.count.val = min (s.count.val + 1) 7 ∧
    t = { s with buf := t.buf, count := t.count }

/-- AVAIL (42_receive_queue.md R141): the count is returned and no state of the block changes. -/
def Obligations.AvailReturnsTheCount : Prop :=
  ∀ s : State, exec .avail s = .next { s with observed := s.observed ++ [.available s.count] }

/-- READ (42_receive_queue.md R142): on an empty queue 0 and nothing changes; else the count goes down and the entry at
the new count is returned, its slot left as it is. -/
def Obligations.ReadReturnsTheOldest : Prop :=
  ∀ s : State,
    (s.count = 0 → exec .read s = .next { s with observed := s.observed ++ [.readByte 0] }) ∧
    (∀ c : Slot, s.count.val = c.val + 1 →
      exec .read s = .next { s with count := c, observed := s.observed ++ [.readByte (s.buf.read c)] })

/-- The queue is a list of at most seven unread bytes, oldest first: PUSH appends and drops the head of a full list, READ
takes the head, AVAIL is the length (42_receive_queue.md R140 to R144, 20_memory.md R51). -/
def Obligations.QueueRefinesBoundedFifo : Prop :=
  ∀ s : State, s.unread.length = s.count.val ∧
    (∀ v, ∃ t, exec (.push v) s = .next t ∧
      t.unread = (if s.unread.length = 7 then s.unread.tail else s.unread) ++ [v]) ∧
    (∃ t, exec .read s = .next t ∧ t.unread = s.unread.tail ∧
      t.observed = s.observed ++ [.readByte (s.unread.headD 0)]) ∧
    (∃ t, exec .avail s = .next t ∧ t.unread = s.unread ∧
      ∃ n : Fin 8, n.val = s.unread.length ∧ t.observed = s.observed ++ [.available n])

/-- First in, first out (42_receive_queue.md R143): up to seven pushes into an empty queue are read back in order, and a
further READ returns 0. -/
def Obligations.PushedBytesReadBackInOrder : Prop :=
  ∀ (vs : List Byte) (s : State), s.count = 0 → vs.length ≤ 7 →
    ∃ t, execAll (vs.map .push ++ [.avail] ++ List.replicate (vs.length + 1) .read) s = .next t ∧
      (∃ n : Fin 8, n.val = vs.length ∧
        t.observed = s.observed ++ [.available n] ++ vs.map .readByte ++ [.readByte 0]) ∧ t.count = 0

/-- Overwrite oldest (42_receive_queue.md R144): after seven or more pushes with no read the queue holds the last seven
values pushed. -/
def Obligations.QueueKeepsTheLastSeven : Prop :=
  ∀ (vs : List Byte) (s : State), 7 ≤ vs.length →
    ∃ t, execAll (vs.map .push) s = .next t ∧ t.count.val = 7 ∧ t.unread = vs.drop (vs.length - 7)

/-- Empty read (42_receive_queue.md R145): any number of READs of an empty queue return 0 and leave every slot and the
count. -/
def Obligations.EmptyReadsReturnTheSentinel : Prop :=
  ∀ (n : Nat) (s : State), s.count = 0 →
    execAll (List.replicate n .read) s =
      .next { s with observed := s.observed ++ List.replicate n (.readByte 0) }

/-- What AVAIL promises (20_memory.md R58 (b)): only READ lowers the count, so after `count` was seen to be above the
number of READs made since, the next READ returns a pushed byte: the oldest unread, not the sentinel's branch. -/
def Obligations.AvailPromisesThatManyReads : Prop :=
  (∀ (i : Instr) (s t : State), exec i s = .next t → t.count.val < s.count.val → i = .read) ∧
  (∀ (is : List Instr) (s t : State), execAll is s = .next t → is.count .read < s.count.val →
    ∃ v rest u, t.unread = v :: rest ∧ exec .read t = .next u ∧ u.unread = rest ∧
      u.observed = t.observed ++ [.readByte v])

/-! ## The whole link -/

/-- Where the edges of a frame fall (30_encoding.md R75): whichever transition is the falling edge, ten edges, the first
at the header mark's start or end, then a gap of 13500 or 5062, then one gap per data bit, bit 7 first. The channel is no
part of the block (decision D7, log 23). -/
def Obligations.FrameMakesTenEdges : Prop :=
  ∀ (b : Byte) (s t : State) (offset : Timestamp), s.txPhase = .idle → s.carrier = .off →
    exec (.send b) s = .next t →
    (∀ e, e = s.sendStart + offset →
      channelEdges .markStart offset (s.observedSince t) =
        e :: edgesFrom e (13500 :: [7, 6, 5, 4, 3, 2, 1, 0].map (fun i => if b.getLsbD i then 2249 else 1124))) ∧
    (∀ e, e = s.sendStart + 9000 + offset →
      channelEdges .markEnd offset (s.observedSince t) =
        e :: edgesFrom e (5062 :: [7, 6, 5, 4, 3, 2, 1, 0].map (fun i => if b.getLsbD i then 2249 else 1124)))

/-- What one well-formed frame decodes to (30_encoding.md R80, V-DEC-7): sent through the ideal channel, with either
transition as the falling edge and any offset between the clocks, after a new-frame gap, `b` arrives as `b >> 1`. The
channel is no part of the block (decision D7, log 23). -/
def Obligations.FrameArrivesHalved : Prop :=
  ∀ (b : Byte) (s t r : State) (ea : EdgeAt) (offset : Timestamp) (edges : List Timestamp),
    s.txPhase = .idle → s.carrier = .off → exec (.send b) s = .next t →
    edges = channelEdges ea offset (s.observedSince t) →
    r.rxEnabled = true →
    (∀ e, edges.head? = some e → 15000 < (e - r.previousEdgeTimestamp).toNat) →
    ∃ u, execAll (edges.map .edge) r = .next u ∧
      u.unread = (if r.count.val = 7 then r.unread.tail else r.unread) ++ [b >>> 1] ∧
      u.headerSeen = true ∧ u.bitCount = 1 ∧ u.shiftRegister = b &&& 1

/-- The first edge taken for the header boundary (70_reset_and_hazards.md R193, V-DEC-6): when no header was seen and the
first edge comes at most 15000 after `previousEdgeTimestamp`, `0x40 | (b >> 2)` is queued (channel: log 23). -/
def Obligations.EarlyFirstEdgeShiftsTheFrame : Prop :=
  ∀ (b : Byte) (s t r : State) (ea : EdgeAt) (offset : Timestamp) (edges : List Timestamp),
    s.txPhase = .idle → s.carrier = .off → exec (.send b) s = .next t →
    edges = channelEdges ea offset (s.observedSince t) →
    r.rxEnabled = true → r.headerSeen = false →
    (∀ e, edges.head? = some e → (e - r.previousEdgeTimestamp).toNat ≤ 15000) →
    ∃ u, execAll (edges.map .edge) r = .next u ∧
      u.unread = (if r.count.val = 7 then r.unread.tail else r.unread) ++ [0x40 ||| (b >>> 2)] ∧
      u.bitCount = 2 ∧ u.shiftRegister = b &&& 3

/-- Enabled in mid-frame (70_reset_and_hazards.md R195): the frame's first edge is not delivered; with the second above
15000 after `previousEdgeTimestamp`, `b & 0x7F` is queued (channel: log 23). -/
def Obligations.MidFrameStartQueuesLowBits : Prop :=
  ∀ (b : Byte) (s t r : State) (ea : EdgeAt) (offset e₀ : Timestamp) (edges : List Timestamp),
    s.txPhase = .idle → s.carrier = .off → exec (.send b) s = .next t →
    e₀ :: edges = channelEdges ea offset (s.observedSince t) →
    r.rxEnabled = true →
    (∀ e, edges.head? = some e → 15000 < (e - r.previousEdgeTimestamp).toNat) →
    ∃ u, execAll (edges.map .edge) r = .next u ∧
      u.unread = (if r.count.val = 7 then r.unread.tail else r.unread) ++ [b &&& 0x7F] ∧
      u.headerSeen = true ∧ u.bitCount = 0 ∧ u.shiftRegister = 0

/-- The whole link (P3 and P4 of 95_test_vectors.md, for any bytes): bytes sent one after the other, each SEND called
when the last returns, arrive halved and in order; the queue keeps the last seven. The channel is no part of the block
(decision D7, log 23). -/
def Obligations.LinkDeliversHalvedBytesInOrder : Prop :=
  ∀ (bs : List Byte) (s t r : State) (ea : EdgeAt) (offset : Timestamp) (edges : List Timestamp),
    s.txPhase = .idle → s.carrier = .off → execAll (bs.map .send) s = .next t →
    edges = channelEdges ea offset (s.observedSince t) →
    r.rxEnabled = true →
    (∀ e, edges.head? = some e → 15000 < (e - r.previousEdgeTimestamp).toNat) →
    ∃ u, execAll (edges.map .edge) r = .next u ∧ u.unread = lastSeven (r.unread ++ bs.map (fun b : Byte => b >>> 1))

/-! ## The whole machine -/

/-- When an operation answers a next state, for every operation and every state. It is when the rule that defines it says
that it is enabled, but for two: EDGE also answers one before BEGIN_RX, where R121 does not enable it and it changes nothing
(log 10), and PUSH answers one on its own, where R140 has it only inside EDGE.DATA (log 27). The two reserved codes never do
(30_encoding.md R82 (a)). That the model refuses what is not enabled, and where the wire rows may be run, are its choices
(logs 8, 9, 11). -/
def Obligations.WhenOperationsAnswerANextState : Prop :=
  ∀ (i : Instr) (s : State), (∃ t, exec i s = .next t) ↔
    match i with
    | .beginTx => s.txPhase = .idle
    | .send _ | .txAccept _ | .frame _ | .symH | .sym0 | .sym1 | .symS =>
      s.txEnabled = true ∧ s.txPhase = .idle
    | .beginRx | .avail | .read => True
    | .edge _ => True
    | .push _ => True
    | .edgeNewFrame t => s.rxEnabled = true ∧ 15000 < (t - s.previousEdgeTimestamp).toNat
    | .edgeHeader t =>
      s.rxEnabled = true ∧ (t - s.previousEdgeTimestamp).toNat ≤ 15000 ∧ s.headerSeen = false
    | .edgeData t =>
      s.rxEnabled = true ∧ (t - s.previousEdgeTimestamp).toNat ≤ 15000 ∧ s.headerSeen = true
    | .reserved110 | .reserved111 => False
    | .txWait => s.txPhase = .wait
    | .txSeg => s.txPhase = .emit ∧ s.seg.val ≤ 18 ∧ s.txNow = s.segEnd
    | .txDone => s.txPhase = .emit ∧ s.seg.val = 19 ∧ s.txNow = s.segEnd

/-- The reserved codes are refused, in every state (30_encoding.md R82 (a)). -/
def Obligations.ReservedCodesAreRefused : Prop :=
  ∀ s : State, exec .reserved110 s = .refused .reservedCode ∧ exec .reserved111 s = .refused .reservedCode ∧
    step (s.withFetchWord 3 0b110) = .refused .reservedCode ∧ step (s.withFetchWord 3 0b111) = .refused .reservedCode

/-- Who writes what (10_state.md R21 to R31, 20_memory.md R56, 60_exceptions.md R168): an element changes only under the
operations its rule names. The wire rows among the writers of `carrier` are log 11; the clauses on the model's own fields
are logs 3 (`txNow`), 4 (`inputs`), 7 (`observed`) and 15 (`draws`). -/
def Obligations.ElementsChangeOnlyUnderTheirWriters : Prop :=
  ∀ (i : Instr) (s t : State), exec i s = .next t →
    let send := ∃ b, i = .send b
    let wire := (∃ b, i = .frame b) ∨ i = .symH ∨ i = .sym0 ∨ i = .sym1 ∨ i = .symS
    (t.lastFrameEndTimestamp ≠ s.lastFrameEndTimestamp → send ∨ i = .txDone) ∧
    (t.carrier ≠ s.carrier → send ∨ i = .beginTx ∨ i = .txWait ∨ i = .txSeg ∨ wire) ∧
    (t.txPhase ≠ s.txPhase → send ∨ (∃ b, i = .txAccept b) ∨ i = .txWait ∨ i = .txDone) ∧
    (t.seg ≠ s.seg → send ∨ i = .txWait ∨ i = .txSeg) ∧
    (t.segEnd ≠ s.segEnd → send ∨ i = .txWait ∨ i = .txSeg) ∧
    (t.txByte ≠ s.txByte → send ∨ ∃ b, i = .txAccept b) ∧
    (t.txEnabled ≠ s.txEnabled → i = .beginTx) ∧
    (t.rxEnabled ≠ s.rxEnabled → i = .beginRx) ∧
    (t.previousEdgeTimestamp ≠ s.previousEdgeTimestamp →
      ∃ e, i = .edge e ∨ i = .edgeNewFrame e ∨ i = .edgeHeader e ∨ i = .edgeData e) ∧
    (t.headerSeen ≠ s.headerSeen → ∃ e, i = .edge e ∨ i = .edgeNewFrame e ∨ i = .edgeHeader e) ∧
    (t.bitCount ≠ s.bitCount → ∃ e, i = .edge e ∨ i = .edgeHeader e ∨ i = .edgeData e) ∧
    (t.shiftRegister ≠ s.shiftRegister → ∃ e, i = .edge e ∨ i = .edgeHeader e ∨ i = .edgeData e) ∧
    (t.buf ≠ s.buf → ∃ e v, i = .edge e ∨ i = .edgeData e ∨ i = .push v) ∧
    (t.count ≠ s.count → ∃ e v, i = .edge e ∨ i = .edgeData e ∨ i = .push v ∨ i = .read) ∧
    (t.txNow ≠ s.txNow → send ∨ wire) ∧
    (t.observed ≠ s.observed →
      send ∨ i = .beginTx ∨ i = .txWait ∨ i = .txSeg ∨ i = .txDone ∨ wire ∨ i = .avail ∨ i = .read) ∧
    t.inputs = s.inputs ∧ t.draws = s.draws

/-- `txEnabled` (10_state.md R24): false at reset, set by BEGIN_TX, never cleared by any step; SEND without it is
refused. -/
def Obligations.TxEnabledIsSetOnceAndForAll : Prop :=
  State.reset.txEnabled = false ∧
  (∀ s t, exec .beginTx s = .next t → t.txEnabled = true) ∧
  (∀ s t, s.txEnabled = true → step s = .next t → t.txEnabled = true) ∧
  (∀ b s, s.txEnabled = false → exec (.send b) s = .refused .sendBeforeBeginTx)

/-- `rxEnabled` (10_state.md R31): false at reset, set by BEGIN_RX, never cleared by any step; while it is false no EDGE
step is taken, and AVAIL and READ work whatever its value. -/
def Obligations.RxEnabledIsSetOnceAndForAll : Prop :=
  State.reset.rxEnabled = false ∧
  (∀ s t, exec .beginRx s = .next t → t.rxEnabled = true) ∧
  (∀ s t, s.rxEnabled = true → step s = .next t → t.rxEnabled = true) ∧
  (∀ e s, s.rxEnabled = false → exec (.edge e) s = .next s) ∧
  (∀ s : State, (∃ t, exec .avail s = .next t) ∧ ∃ t, exec .read s = .next t)

/-- The two devices share no state (10_state.md R20): an operation of one side runs the same whatever the other side's
state is, and leaves that state alone. The model's own `observed`, `inputs` and `draws`, which both sides share in its one
State, belong to neither (logs 1, 4, 7, 15). -/
def Obligations.DevicesShareNoState : Prop :=
  ∀ (i : Instr) (s r t : State), exec i s = .next t →
    (i.onTx = true → t.withRx s = t ∧ exec i (s.withRx r) = .next (t.withRx r)) ∧
    (i.onRx = true → t.withTx s = t ∧ exec i (s.withTx r) = .next (t.withTx r))

/-- The invariants of every reachable state hold at reset: those of 10_state.md R36, that a SEND is in progress only after
BEGIN_TX (10_state.md R24, 40_transmitter.md R102), and the canonical form of the queue store, which is the model's own
choice (log 17). -/
def Obligations.ResetSatisfiesTheInvariant : Prop :=
  State.reset.Inv

/-- Every step keeps them, from every state that has them, whatever is presented: 10_state.md R36, that a SEND is in progress
only after BEGIN_TX (10_state.md R24, 40_transmitter.md R102), and the canonical form of the queue store, which is the
model's own choice (log 17). -/
def Obligations.StepKeepsTheInvariant : Prop :=
  ∀ s t : State, s.Inv → step s = .next t → t.Inv

/-- Two stores in canonical form that read alike are equal: the queue store is held in one way only (the model's own
form, log 17). -/
def Obligations.EqualReadsMeanEqualStores : Prop :=
  ∀ m n : Memory, m.wf → n.wf → (∀ i : Slot, m.read i = n.read i) → m = n

/-! ## The parameters -/

/-- The width of timestamps is a parameter (00_scope.md R8, decision D1): at the default 32 the machine of any width is
`exec`, `step` and `State.reset`. -/
def Obligations.DefaultWidthIsTheMachine : Prop :=
  (∀ (i : Instr) (s : State), execAt i s = exec i s) ∧
  (∀ s : State, stepAt Config.hostAtomic s = step s) ∧
  State.resetAt 32 = State.reset

/-- Timestamp arithmetic at every width (00_scope.md R8, 10_state.md R47): the time between two clock values is the time
that passed, modulo 2^W; and from 16 bits on no frame, no wait and no threshold of the profile wraps. -/
def Obligations.TimeIsModularAtEveryWidth : Prop :=
  ∀ W : Nat,
    (∀ (t : Timestamp W) (d : Nat), (later t d - t).toNat = d % 2 ^ W) ∧
    (∀ (t : Timestamp W) (d : Nat), (t - earlier t d).toNat = d % 2 ^ W) ∧
    (16 ≤ W → (∀ b, frameDuration b < 2 ^ W) ∧
      (∀ n ∈ [9000, 4500, 562, 1687, 1000, 16000, 15000, 1500], n < 2 ^ W) ∧
      (∀ s : State W, 16000 ≤ (s.sendStart - s.lastFrameEndTimestamp).toNat ∧
        (s.sendStart - s.txNow).toNat ≤ 16000))

/-- The invariant of `StepKeepsTheInvariant` (its parts and log 17 are named there) holds at reset and is kept by every step
at every width of timestamps (00_scope.md R8, decision D1) and for either value of `HOST_ATOMIC` (decision D3):
also a READ torn by a pushing edge (70_reset_and_hazards.md R197; log 14), whatever it leaves in the count and the slots,
keeps the invariant. -/
def Obligations.InvariantHoldsForEveryParameter : Prop :=
  ∀ (W : Nat) (atomic : Bool), (State.resetAt W).Inv ∧
    ∀ s t : State W, s.Inv → stepAt atomic s = .next t → t.Inv
end

