-- ==== Sys2Proof/Laws/Encoding.lean ====
section
/-! SUPPORT. Words and bytes: what bytes hold, how many there are, and how long each format is at a given width. -/

namespace Sys2Proof

@[simp] theorem length_bytesOf (n w : Nat) : (bytesOf n w).length = n := by
  induction n generalizing w with
  | zero => rfl
  | succ n ih => simp [bytesOf, ih]

/-- `n` bytes hold a word modulo 2^(8n). -/
theorem wordOf_bytesOf (n w : Nat) : wordOf (bytesOf n w) = w % 256 ^ n := by
  induction n generalizing w with
  | zero => simp [bytesOf, wordOf, Nat.mod_one]
  | succ n ih =>
    have h : 256 ^ (n + 1) = 256 * 256 ^ n := Nat.pow_succ'
    rw [bytesOf, wordOf, ih, BitVec.toNat_ofNat, h, Nat.mod_mul]

/-- As many bytes as there are, holding the number that they hold, are those bytes. -/
theorem bytesOf_wordOf (bs : List Byte) : bytesOf bs.length (wordOf bs) = bs := by
  induction bs with
  | nil => rfl
  | cons b bs ih =>
    have hb := b.isLt
    have h1 : BitVec.ofNat 8 (b.toNat + 256 * wordOf bs) = b := by
      apply BitVec.eq_of_toNat_eq
      rw [BitVec.toNat_ofNat]
      omega
    have h2 : (b.toNat + 256 * wordOf bs) / 256 = wordOf bs := by omega
    rw [List.length_cons, bytesOf, wordOf, h1, h2, ih]

theorem wordOf_lt (bs : List Byte) : wordOf bs < 256 ^ bs.length := by
  induction bs with
  | nil => decide
  | cons b bs ih =>
    have hb := b.isLt
    rw [wordOf, List.length_cons, Nat.pow_succ']
    omega

/-- The whole bytes of a word have room for it. -/
theorem two_pow_le_bytesFor (nbits : Nat) : 2 ^ nbits ≤ 256 ^ bytesFor nbits := by
  have h : (256 : Nat) = 2 ^ 8 := by decide
  rw [h, ← Nat.pow_mul]
  exact Nat.pow_le_pow_right (by decide) (by unfold bytesFor; omega)

/-- At every width the spec asks for, a format T word is longer than the words of the other two formats. -/
theorem bytesFor_bitsT {W : Nat} (hW : Config.minTsWidth ≤ W) : 2 < bytesFor (bitsT W) := by
  simp only [bytesFor, bitsT, Config.minTsWidth] at *
  omega

end Sys2Proof
end

