-- ==== Sys2Proof/Laws/Memory.lean ====
section
/-! SUPPORT. The laws of the queue store: a read after a write, the canonical form under every operation, and what the
shift of PUSH leaves in each slot. -/

namespace Sys2Proof.Machine.Memory

@[simp] theorem read_nil (i : Slot) : read [] i = 0 := rfl

/-! Reading around `forget` and `place`. -/

theorem read_forget_same (m : Memory) (i : Slot) : (m.forget i).read i = 0 := by
  induction m with
  | nil => rfl
  | cons c m ih =>
    obtain ⟨a, v⟩ := c
    by_cases h : a = i.val
    · simp [forget, h, ih]
    · simp [forget, read, h, ih]

theorem read_forget_other (m : Memory) {i j : Slot} (h : i ≠ j) : (m.forget i).read j = m.read j := by
  have hv : i.val ≠ j.val := fun e => h (Fin.ext e)
  induction m with
  | nil => rfl
  | cons c m ih =>
    obtain ⟨a, v⟩ := c
    by_cases ha : a = i.val
    · simp [forget, read, ha, ih, hv]
    · simp [forget, read, ha, ih]

theorem read_place_same (m : Memory) (i : Slot) (v : Byte) : (m.place i v).read i = v := by
  induction m with
  | nil => simp [place, read]
  | cons c m ih =>
    obtain ⟨a, w⟩ := c
    by_cases h : a < i.val
    · simp [place, read, h, ih, Nat.ne_of_lt h]
    · simp [place, read, h]

theorem read_place_other (m : Memory) {i j : Slot} (h : i ≠ j) (v : Byte) : (m.place i v).read j = m.read j := by
  have hv : i.val ≠ j.val := fun e => h (Fin.ext e)
  induction m with
  | nil => simp [place, read, hv, unlisted]
  | cons c m ih =>
    obtain ⟨a, w⟩ := c
    by_cases ha : a < i.val
    · simp [place, read, ha, ih]
    · simp [place, read, ha, hv]

/-! A read after a write. -/

@[simp] theorem read_write_same (m : Memory) (i : Slot) (v : Byte) : (m.write i v).read i = v := by
  unfold write
  split
  · next h => rw [read_forget_same, h]; rfl
  · exact read_place_same _ _ _

theorem read_write_other (m : Memory) {i j : Slot} (h : i ≠ j) (v : Byte) : (m.write i v).read j = m.read j := by
  unfold write
  split
  · exact read_forget_other m h
  · rw [read_place_other _ h, read_forget_other _ h]

theorem read_write (m : Memory) (i j : Slot) (v : Byte) :
    (m.write i v).read j = if i = j then v else m.read j := by
  by_cases h : i = j
  · subst h; simp
  · simp [h, read_write_other m h]

/-! The canonical form. -/

theorem mem_forget {m : Memory} {i : Slot} {c : Host.Cell} (h : c ∈ m.forget i) : c ∈ m ∧ c.1 ≠ i.val := by
  induction m with
  | nil => simp [forget] at h
  | cons d m ih =>
    obtain ⟨a, v⟩ := d
    by_cases ha : a = i.val
    · rw [forget, if_pos ha] at h
      exact ⟨List.mem_cons_of_mem _ (ih h).1, (ih h).2⟩
    · rw [forget, if_neg ha, List.mem_cons] at h
      rcases h with rfl | h
      · exact ⟨List.mem_cons_self, ha⟩
      · exact ⟨List.mem_cons_of_mem _ (ih h).1, (ih h).2⟩

theorem mem_place {m : Memory} {i : Slot} {v : Byte} {c : Host.Cell} (h : c ∈ m.place i v) :
    c = (i.val, v) ∨ c ∈ m := by
  induction m with
  | nil => simpa [place] using h
  | cons d m ih =>
    obtain ⟨a, w⟩ := d
    by_cases ha : a < i.val
    · rw [place, if_pos ha, List.mem_cons] at h
      rcases h with rfl | h
      · exact .inr List.mem_cons_self
      · exact (ih h).imp id (List.mem_cons_of_mem _)
    · rw [place, if_neg ha, List.mem_cons] at h
      exact h

theorem wf_forget {m : Memory} (h : m.wf) (i : Slot) : (m.forget i).wf := by
  refine ⟨?_, fun c hc => h.2 c (mem_forget hc).1⟩
  have hs := h.1
  clear h
  induction m with
  | nil => simp [forget]
  | cons d m ih =>
    obtain ⟨a, v⟩ := d
    rw [List.pairwise_cons] at hs
    by_cases ha : a = i.val
    · rw [forget, if_pos ha]; exact ih hs.2
    · rw [forget, if_neg ha, List.pairwise_cons]
      exact ⟨fun c hc => hs.1 c (mem_forget hc).1, ih hs.2⟩

theorem rising_place {m : Memory} (hs : m.Pairwise (fun c d => c.1 < d.1)) (i : Slot) (v : Byte)
    (hn : ∀ c ∈ m, c.1 ≠ i.val) : (m.place i v).Pairwise (fun c d => c.1 < d.1) := by
  induction m with
  | nil => simp [place]
  | cons d m ih =>
    obtain ⟨a, w⟩ := d
    rw [List.pairwise_cons] at hs
    have hm := ih hs.2 (fun c hc => hn c (List.mem_cons_of_mem _ hc))
    by_cases ha : a < i.val
    · rw [place, if_pos ha, List.pairwise_cons]
      refine ⟨fun c hc => ?_, hm⟩
      rcases mem_place hc with rfl | hc
      · exact ha
      · exact hs.1 c hc
    · rw [place, if_neg ha, List.pairwise_cons, List.pairwise_cons]
      have hai : i.val < a := by
        have := hn (a, w) List.mem_cons_self
        simp only at this
        omega
      refine ⟨fun c hc => ?_, hs⟩
      rcases List.mem_cons.mp hc with rfl | hc
      · exact hai
      · exact Nat.lt_trans hai (hs.1 c hc)

/-- Every write keeps the canonical form. -/
theorem wf_write {m : Memory} (h : m.wf) (i : Slot) (v : Byte) : (m.write i v).wf := by
  have hf := wf_forget h i
  unfold write
  split
  · exact hf
  · next hv =>
    refine ⟨rising_place hf.1 i v (fun c hc => (mem_forget hc).2), fun c hc => ?_⟩
    rcases mem_place hc with rfl | hc
    · exact ⟨i.isLt, hv⟩
    · exact hf.2 c hc

theorem wf_nil : wf [] := by simp [wf]

theorem wf_shiftUp {m : Memory} (h : m.wf) (n : Nat) (hn : n < Config.qSlots) : (m.shiftUp n hn).wf := by
  induction n generalizing m with
  | zero => exact h
  | succ n ih => exact ih (wf_write h _ _) _

theorem wf_ofSlots (f : Fin 8 → Byte) : (ofSlots f).wf := by
  unfold ofSlots
  have key : ∀ (l : List (Fin 8)) (m : Memory), m.wf → (l.foldl (fun m i => Memory.write m i (f i)) m).wf := by
    intro l
    induction l with
    | nil => intro m h; exact h
    | cons i l ih => intro m h; exact ih _ (wf_write h i (f i))
  exact key _ _ wf_nil

/-! Equal reads, equal stores. -/

theorem read_eq_zero_of_below {m : Memory} {i : Slot} (h : ∀ c ∈ m, i.val < c.1) : m.read i = 0 := by
  induction m with
  | nil => rfl
  | cons d m ih =>
    obtain ⟨a, v⟩ := d
    have ha := h (a, v) List.mem_cons_self
    simp only at ha
    rw [read, if_neg (by omega)]
    exact ih (fun c hc => h c (List.mem_cons_of_mem _ hc))

theorem wf_tail {c : Host.Cell} {m : Memory} (h : wf (c :: m)) : m.wf :=
  ⟨(List.pairwise_cons.mp h.1).2, fun d hd => h.2 d (List.mem_cons_of_mem _ hd)⟩

/-! The shift of PUSH. -/

/-- After `shiftUp n`, slot `j` holds what slot `j - 1` held, for `1 <= j <= n`; every other slot is unchanged. -/
theorem read_shiftUp (m : Memory) (n : Nat) (hn : n < Config.qSlots) (j : Slot) :
    (m.shiftUp n hn).read j =
      if 1 ≤ j.val ∧ j.val ≤ n then m.read ⟨j.val - 1, by omega⟩ else m.read j := by
  induction n generalizing m with
  | zero => rw [shiftUp, if_neg (by omega)]
  | succ n ih =>
    rw [shiftUp, ih]
    by_cases h1 : 1 ≤ j.val ∧ j.val ≤ n
    · rw [if_pos h1, if_pos ⟨h1.1, by omega⟩, read_write, if_neg]
      intro h
      have := congrArg Fin.val h
      simp only at this
      omega
    · rw [if_neg h1, read_write]
      by_cases h2 : j.val = n + 1
      · rw [if_pos (Fin.ext h2.symm), if_pos ⟨by omega, by omega⟩]
        congr 1
        exact Fin.ext (by simp [h2])
      · rw [if_neg (fun h => h2 (congrArg Fin.val h).symm), if_neg (by omega)]

end Sys2Proof.Machine.Memory
end

