-- ==== Sys2Proof/Laws/Operands.lean ====
section
/-! SUPPORT. The laws of timestamp arithmetic, of gaps and bits, and of the durations of a frame. -/

namespace Sys2Proof.Machine

variable {W : Nat}

/-! Timestamps, of any width. -/

@[simp] theorem later_zero (t : Timestamp W) : later t 0 = t := by simp [later]

theorem later_later (t : Timestamp W) (a b : Nat) : later (later t a) b = later t (a + b) := by
  simp [later, BitVec.add_assoc, BitVec.ofNat_add]

theorem earlier_later (t : Timestamp W) (a b : Nat) (h : b ≤ a) : earlier (later t a) b = later t (a - b) := by
  rw [← Nat.sub_add_cancel h, ← later_later]
  simp [later, earlier]

theorem later_elapsed (a b : Timestamp W) : later b (elapsed a b) = a := by
  rw [later, elapsed, BitVec.ofNat_toNat, BitVec.setWidth_eq, add_sub_cancel]

/-- Time adds up modulo 2^W (R47). -/
theorem elapsed_later_mod (t u : Timestamp W) (d : Nat) : elapsed (later t d) u = (elapsed t u + d) % 2 ^ W := by
  have h : t + BitVec.ofNat W d - u = (t - u) + BitVec.ofNat W d := add_sub_right_comm _ _ _
  rw [later, elapsed, elapsed, h, BitVec.toNat_add, BitVec.toNat_ofNat, Nat.add_mod_mod]

theorem elapsed_later (t : Timestamp W) {d : Nat} (h : d < 2 ^ W) : elapsed (later t d) t = d := by
  rw [elapsed_later_mod]
  simp [elapsed, Nat.mod_eq_of_lt h]

theorem elapsed_later_later (t : Timestamp W) {a b : Nat} (h : a ≤ b) (hb : b < 2 ^ W) :
    elapsed (later t b) (later t a) = b - a := by
  rw [← Nat.add_sub_cancel' h, ← later_later, elapsed_later _ (by omega), Nat.add_sub_cancel_left]

/-! The spacing, at every width the spec asks for (R8: at least 16 bits). -/

theorem lt_two_pow {n : Nat} (hW : Config.minTsWidth ≤ W) (h : n < 2 ^ 16) : n < 2 ^ W :=
  Nat.lt_of_lt_of_le h (Nat.pow_le_pow_right (by decide) hW)

/-- At the end of the wait the spacing is met (R103). -/
theorem spacing_met_after (last now : Timestamp W) (hW : Config.minTsWidth ≤ W := by decide) :
    Config.minFrameInterval ≤ elapsed (later now (spacingLeft last now)) last := by
  have h16 : 16000 < 2 ^ W := lt_two_pow hW (by decide)
  rw [elapsed_later_mod, spacingLeft, Config.minFrameInterval]
  by_cases h : 16000 ≤ elapsed now last
  · rw [Nat.sub_eq_zero_of_le h, Nat.add_zero, elapsed, Nat.mod_eq_of_lt (BitVec.isLt _)]
    exact h
  · rw [Nat.add_sub_cancel' (by omega), Nat.mod_eq_of_lt h16]

/-- Before it the spacing is not met, and the wait left is what it was less the time passed. -/
theorem spacing_before (last now : Timestamp W) {j : Nat} (h : j < spacingLeft last now)
    (hW : Config.minTsWidth ≤ W := by decide) :
    elapsed (later now j) last < Config.minFrameInterval ∧
      spacingLeft last (later now j) = spacingLeft last now - j := by
  have h16 : 16000 < 2 ^ W := lt_two_pow hW (by decide)
  simp only [spacingLeft, Config.minFrameInterval] at *
  rw [elapsed_later_mod, Nat.mod_eq_of_lt (by omega)]
  omega

/-! Gaps and bits. -/

/-- The data bit, with the tie at the threshold as the spec decides it (R78). -/
theorem dataBit_eq (gap : Nat) : dataBit gap = decide (1500 < gap) := by
  simp [dataBit]

theorem classify_newFrame {gap : Nat} (h : 15000 < gap) (hs : Bool) : classify gap hs = .newFrame := by
  simp [classify, h]

theorem classify_header {gap : Nat} (h : gap ≤ 15000) : classify gap false = .header := by
  simp [classify, Nat.not_lt.mpr h]

theorem classify_data {gap : Nat} (h : gap ≤ 15000) : classify gap true = .data := by
  simp [classify, Nat.not_lt.mpr h]

theorem classify_eq_newFrame {gap : Nat} {hs : Bool} : classify gap hs = .newFrame ↔ 15000 < gap := by
  unfold classify
  split
  · next h => simpa using h
  · next h => cases hs <;> simp_all

theorem classify_eq_header {gap : Nat} {hs : Bool} :
    classify gap hs = .header ↔ gap ≤ 15000 ∧ hs = false := by
  unfold classify
  split
  · next h => simp at h; simp; omega
  · next h => cases hs <;> simp_all

theorem classify_eq_data {gap : Nat} {hs : Bool} :
    classify gap hs = .data ↔ gap ≤ 15000 ∧ hs = true := by
  unfold classify
  split
  · next h => simp at h; simp; omega
  · next h => cases hs <;> simp_all

/-- The shift doubles the register and adds the bit, on 8 bits (R48 (a)). -/
theorem toNat_shiftIn (sr : Byte) (bit : Bool) :
    (shiftIn sr bit).toNat = (2 * sr.toNat + bit.toNat) % 256 := by
  revert sr bit
  decide

theorem shiftIn_eq (sr : Byte) (bit : Bool) : shiftIn sr bit = BitVec.ofNat 8 (2 * sr.toNat + bit.toNat) :=
  BitVec.eq_of_toNat_eq (by rw [toNat_shiftIn, BitVec.toNat_ofNat])

/-! Durations. -/

theorem mark_add_space_dataSym (b : Byte) (i : Nat) :
    (dataSym b i).mark + (dataSym b i).space = if b.getLsbD i then 2249 else 1124 := by
  unfold dataSym
  split <;> rfl

end Sys2Proof.Machine
end

