-- ==== Sys2Proof/Laws/State.lean ====
section
/-! SUPPORT. One lemma per field per update of State, true by definition: later proofs unfold no record update. -/

namespace Sys2Proof.Machine.State

/-! Something leaves the block. -/

@[simp] theorem observe_lastFrameEndTimestamp {W : Nat} (s : State W) (o : Observation W) : (s.observe o).lastFrameEndTimestamp = s.lastFrameEndTimestamp := rfl
@[simp] theorem observe_carrier {W : Nat} (s : State W) (o : Observation W) : (s.observe o).carrier = s.carrier := rfl
@[simp] theorem observe_txPhase {W : Nat} (s : State W) (o : Observation W) : (s.observe o).txPhase = s.txPhase := rfl
@[simp] theorem observe_seg {W : Nat} (s : State W) (o : Observation W) : (s.observe o).seg = s.seg := rfl
@[simp] theorem observe_txByte {W : Nat} (s : State W) (o : Observation W) : (s.observe o).txByte = s.txByte := rfl
@[simp] theorem observe_segEnd {W : Nat} (s : State W) (o : Observation W) : (s.observe o).segEnd = s.segEnd := rfl
@[simp] theorem observe_txEnabled {W : Nat} (s : State W) (o : Observation W) : (s.observe o).txEnabled = s.txEnabled := rfl
@[simp] theorem observe_previousEdgeTimestamp {W : Nat} (s : State W) (o : Observation W) : (s.observe o).previousEdgeTimestamp = s.previousEdgeTimestamp := rfl
@[simp] theorem observe_headerSeen {W : Nat} (s : State W) (o : Observation W) : (s.observe o).headerSeen = s.headerSeen := rfl
@[simp] theorem observe_bitCount {W : Nat} (s : State W) (o : Observation W) : (s.observe o).bitCount = s.bitCount := rfl
@[simp] theorem observe_shiftRegister {W : Nat} (s : State W) (o : Observation W) : (s.observe o).shiftRegister = s.shiftRegister := rfl
@[simp] theorem observe_buf {W : Nat} (s : State W) (o : Observation W) : (s.observe o).buf = s.buf := rfl
@[simp] theorem observe_count {W : Nat} (s : State W) (o : Observation W) : (s.observe o).count = s.count := rfl
@[simp] theorem observe_rxEnabled {W : Nat} (s : State W) (o : Observation W) : (s.observe o).rxEnabled = s.rxEnabled := rfl
@[simp] theorem observe_txNow {W : Nat} (s : State W) (o : Observation W) : (s.observe o).txNow = s.txNow := rfl
@[simp] theorem observe_inputs {W : Nat} (s : State W) (o : Observation W) : (s.observe o).inputs = s.inputs := rfl
@[simp] theorem observe_observed {W : Nat} (s : State W) (o : Observation W) : (s.observe o).observed = s.observed ++ [o] := rfl
@[simp] theorem observe_draws {W : Nat} (s : State W) (o : Observation W) : (s.observe o).draws = s.draws := rfl

/-! The clock advances. -/

@[simp] theorem advance_lastFrameEndTimestamp {W : Nat} (s : State W) (d : Nat) : (s.advance d).lastFrameEndTimestamp = s.lastFrameEndTimestamp := rfl
@[simp] theorem advance_carrier {W : Nat} (s : State W) (d : Nat) : (s.advance d).carrier = s.carrier := rfl
@[simp] theorem advance_txPhase {W : Nat} (s : State W) (d : Nat) : (s.advance d).txPhase = s.txPhase := rfl
@[simp] theorem advance_seg {W : Nat} (s : State W) (d : Nat) : (s.advance d).seg = s.seg := rfl
@[simp] theorem advance_txByte {W : Nat} (s : State W) (d : Nat) : (s.advance d).txByte = s.txByte := rfl
@[simp] theorem advance_segEnd {W : Nat} (s : State W) (d : Nat) : (s.advance d).segEnd = s.segEnd := rfl
@[simp] theorem advance_txEnabled {W : Nat} (s : State W) (d : Nat) : (s.advance d).txEnabled = s.txEnabled := rfl
@[simp] theorem advance_previousEdgeTimestamp {W : Nat} (s : State W) (d : Nat) : (s.advance d).previousEdgeTimestamp = s.previousEdgeTimestamp := rfl
@[simp] theorem advance_headerSeen {W : Nat} (s : State W) (d : Nat) : (s.advance d).headerSeen = s.headerSeen := rfl
@[simp] theorem advance_bitCount {W : Nat} (s : State W) (d : Nat) : (s.advance d).bitCount = s.bitCount := rfl
@[simp] theorem advance_shiftRegister {W : Nat} (s : State W) (d : Nat) : (s.advance d).shiftRegister = s.shiftRegister := rfl
@[simp] theorem advance_buf {W : Nat} (s : State W) (d : Nat) : (s.advance d).buf = s.buf := rfl
@[simp] theorem advance_count {W : Nat} (s : State W) (d : Nat) : (s.advance d).count = s.count := rfl
@[simp] theorem advance_rxEnabled {W : Nat} (s : State W) (d : Nat) : (s.advance d).rxEnabled = s.rxEnabled := rfl
@[simp] theorem advance_txNow {W : Nat} (s : State W) (d : Nat) : (s.advance d).txNow = later s.txNow d := rfl
@[simp] theorem advance_inputs {W : Nat} (s : State W) (d : Nat) : (s.advance d).inputs = s.inputs := rfl
@[simp] theorem advance_observed {W : Nat} (s : State W) (d : Nat) : (s.advance d).observed = s.observed := rfl
@[simp] theorem advance_draws {W : Nat} (s : State W) (d : Nat) : (s.advance d).draws = s.draws := rfl

/-! `carrier <- l`. -/

@[simp] theorem setCarrier_lastFrameEndTimestamp {W : Nat} (s : State W) (l : Carrier) : (s.setCarrier l).lastFrameEndTimestamp = s.lastFrameEndTimestamp := rfl
@[simp] theorem setCarrier_carrier {W : Nat} (s : State W) (l : Carrier) : (s.setCarrier l).carrier = l := rfl
@[simp] theorem setCarrier_txPhase {W : Nat} (s : State W) (l : Carrier) : (s.setCarrier l).txPhase = s.txPhase := rfl
@[simp] theorem setCarrier_seg {W : Nat} (s : State W) (l : Carrier) : (s.setCarrier l).seg = s.seg := rfl
@[simp] theorem setCarrier_txByte {W : Nat} (s : State W) (l : Carrier) : (s.setCarrier l).txByte = s.txByte := rfl
@[simp] theorem setCarrier_segEnd {W : Nat} (s : State W) (l : Carrier) : (s.setCarrier l).segEnd = s.segEnd := rfl
@[simp] theorem setCarrier_txEnabled {W : Nat} (s : State W) (l : Carrier) : (s.setCarrier l).txEnabled = s.txEnabled := rfl
@[simp] theorem setCarrier_previousEdgeTimestamp {W : Nat} (s : State W) (l : Carrier) : (s.setCarrier l).previousEdgeTimestamp = s.previousEdgeTimestamp := rfl
@[simp] theorem setCarrier_headerSeen {W : Nat} (s : State W) (l : Carrier) : (s.setCarrier l).headerSeen = s.headerSeen := rfl
@[simp] theorem setCarrier_bitCount {W : Nat} (s : State W) (l : Carrier) : (s.setCarrier l).bitCount = s.bitCount := rfl
@[simp] theorem setCarrier_shiftRegister {W : Nat} (s : State W) (l : Carrier) : (s.setCarrier l).shiftRegister = s.shiftRegister := rfl
@[simp] theorem setCarrier_buf {W : Nat} (s : State W) (l : Carrier) : (s.setCarrier l).buf = s.buf := rfl
@[simp] theorem setCarrier_count {W : Nat} (s : State W) (l : Carrier) : (s.setCarrier l).count = s.count := rfl
@[simp] theorem setCarrier_rxEnabled {W : Nat} (s : State W) (l : Carrier) : (s.setCarrier l).rxEnabled = s.rxEnabled := rfl
@[simp] theorem setCarrier_txNow {W : Nat} (s : State W) (l : Carrier) : (s.setCarrier l).txNow = s.txNow := rfl
@[simp] theorem setCarrier_inputs {W : Nat} (s : State W) (l : Carrier) : (s.setCarrier l).inputs = s.inputs := rfl
@[simp] theorem setCarrier_observed {W : Nat} (s : State W) (l : Carrier) : (s.setCarrier l).observed = s.observed ++ (if s.carrier = l then [] else [.carrier s.txNow l]) := rfl
@[simp] theorem setCarrier_draws {W : Nat} (s : State W) (l : Carrier) : (s.setCarrier l).draws = s.draws := rfl

/-! TX.ACCEPT. -/

@[simp] theorem accept_lastFrameEndTimestamp {W : Nat} (s : State W) (b : Byte) : (s.accept b).lastFrameEndTimestamp = s.lastFrameEndTimestamp := rfl
@[simp] theorem accept_carrier {W : Nat} (s : State W) (b : Byte) : (s.accept b).carrier = s.carrier := rfl
@[simp] theorem accept_txPhase {W : Nat} (s : State W) (b : Byte) : (s.accept b).txPhase = .wait := rfl
@[simp] theorem accept_seg {W : Nat} (s : State W) (b : Byte) : (s.accept b).seg = s.seg := rfl
@[simp] theorem accept_txByte {W : Nat} (s : State W) (b : Byte) : (s.accept b).txByte = b := rfl
@[simp] theorem accept_segEnd {W : Nat} (s : State W) (b : Byte) : (s.accept b).segEnd = s.segEnd := rfl
@[simp] theorem accept_txEnabled {W : Nat} (s : State W) (b : Byte) : (s.accept b).txEnabled = s.txEnabled := rfl
@[simp] theorem accept_previousEdgeTimestamp {W : Nat} (s : State W) (b : Byte) : (s.accept b).previousEdgeTimestamp = s.previousEdgeTimestamp := rfl
@[simp] theorem accept_headerSeen {W : Nat} (s : State W) (b : Byte) : (s.accept b).headerSeen = s.headerSeen := rfl
@[simp] theorem accept_bitCount {W : Nat} (s : State W) (b : Byte) : (s.accept b).bitCount = s.bitCount := rfl
@[simp] theorem accept_shiftRegister {W : Nat} (s : State W) (b : Byte) : (s.accept b).shiftRegister = s.shiftRegister := rfl
@[simp] theorem accept_buf {W : Nat} (s : State W) (b : Byte) : (s.accept b).buf = s.buf := rfl
@[simp] theorem accept_count {W : Nat} (s : State W) (b : Byte) : (s.accept b).count = s.count := rfl
@[simp] theorem accept_rxEnabled {W : Nat} (s : State W) (b : Byte) : (s.accept b).rxEnabled = s.rxEnabled := rfl
@[simp] theorem accept_txNow {W : Nat} (s : State W) (b : Byte) : (s.accept b).txNow = s.txNow := rfl
@[simp] theorem accept_inputs {W : Nat} (s : State W) (b : Byte) : (s.accept b).inputs = s.inputs := rfl
@[simp] theorem accept_observed {W : Nat} (s : State W) (b : Byte) : (s.accept b).observed = s.observed := rfl
@[simp] theorem accept_draws {W : Nat} (s : State W) (b : Byte) : (s.accept b).draws = s.draws := rfl

/-! A segment starts. -/

@[simp] theorem startSegment_lastFrameEndTimestamp {W : Nat} (s : State W) (k : SegIx) : (s.startSegment k).lastFrameEndTimestamp = s.lastFrameEndTimestamp := rfl
@[simp] theorem startSegment_carrier {W : Nat} (s : State W) (k : SegIx) : (s.startSegment k).carrier = level k := rfl
@[simp] theorem startSegment_txPhase {W : Nat} (s : State W) (k : SegIx) : (s.startSegment k).txPhase = .emit := rfl
@[simp] theorem startSegment_seg {W : Nat} (s : State W) (k : SegIx) : (s.startSegment k).seg = k := rfl
@[simp] theorem startSegment_txByte {W : Nat} (s : State W) (k : SegIx) : (s.startSegment k).txByte = s.txByte := rfl
@[simp] theorem startSegment_segEnd {W : Nat} (s : State W) (k : SegIx) : (s.startSegment k).segEnd = later s.txNow (dur k s.txByte) := rfl
@[simp] theorem startSegment_txEnabled {W : Nat} (s : State W) (k : SegIx) : (s.startSegment k).txEnabled = s.txEnabled := rfl
@[simp] theorem startSegment_previousEdgeTimestamp {W : Nat} (s : State W) (k : SegIx) : (s.startSegment k).previousEdgeTimestamp = s.previousEdgeTimestamp := rfl
@[simp] theorem startSegment_headerSeen {W : Nat} (s : State W) (k : SegIx) : (s.startSegment k).headerSeen = s.headerSeen := rfl
@[simp] theorem startSegment_bitCount {W : Nat} (s : State W) (k : SegIx) : (s.startSegment k).bitCount = s.bitCount := rfl
@[simp] theorem startSegment_shiftRegister {W : Nat} (s : State W) (k : SegIx) : (s.startSegment k).shiftRegister = s.shiftRegister := rfl
@[simp] theorem startSegment_buf {W : Nat} (s : State W) (k : SegIx) : (s.startSegment k).buf = s.buf := rfl
@[simp] theorem startSegment_count {W : Nat} (s : State W) (k : SegIx) : (s.startSegment k).count = s.count := rfl
@[simp] theorem startSegment_rxEnabled {W : Nat} (s : State W) (k : SegIx) : (s.startSegment k).rxEnabled = s.rxEnabled := rfl
@[simp] theorem startSegment_txNow {W : Nat} (s : State W) (k : SegIx) : (s.startSegment k).txNow = s.txNow := rfl
@[simp] theorem startSegment_inputs {W : Nat} (s : State W) (k : SegIx) : (s.startSegment k).inputs = s.inputs := rfl
@[simp] theorem startSegment_observed {W : Nat} (s : State W) (k : SegIx) : (s.startSegment k).observed = s.observed ++ (if s.carrier = level k then [] else [.carrier s.txNow (level k)]) := rfl
@[simp] theorem startSegment_draws {W : Nat} (s : State W) (k : SegIx) : (s.startSegment k).draws = s.draws := rfl

/-! TX.DONE. -/

@[simp] theorem frameDone_lastFrameEndTimestamp {W : Nat} (s : State W) : s.frameDone.lastFrameEndTimestamp = earlier s.txNow Config.endPullback := rfl
@[simp] theorem frameDone_carrier {W : Nat} (s : State W) : s.frameDone.carrier = s.carrier := rfl
@[simp] theorem frameDone_txPhase {W : Nat} (s : State W) : s.frameDone.txPhase = .idle := rfl
@[simp] theorem frameDone_seg {W : Nat} (s : State W) : s.frameDone.seg = s.seg := rfl
@[simp] theorem frameDone_txByte {W : Nat} (s : State W) : s.frameDone.txByte = s.txByte := rfl
@[simp] theorem frameDone_segEnd {W : Nat} (s : State W) : s.frameDone.segEnd = s.segEnd := rfl
@[simp] theorem frameDone_txEnabled {W : Nat} (s : State W) : s.frameDone.txEnabled = s.txEnabled := rfl
@[simp] theorem frameDone_previousEdgeTimestamp {W : Nat} (s : State W) : s.frameDone.previousEdgeTimestamp = s.previousEdgeTimestamp := rfl
@[simp] theorem frameDone_headerSeen {W : Nat} (s : State W) : s.frameDone.headerSeen = s.headerSeen := rfl
@[simp] theorem frameDone_bitCount {W : Nat} (s : State W) : s.frameDone.bitCount = s.bitCount := rfl
@[simp] theorem frameDone_shiftRegister {W : Nat} (s : State W) : s.frameDone.shiftRegister = s.shiftRegister := rfl
@[simp] theorem frameDone_buf {W : Nat} (s : State W) : s.frameDone.buf = s.buf := rfl
@[simp] theorem frameDone_count {W : Nat} (s : State W) : s.frameDone.count = s.count := rfl
@[simp] theorem frameDone_rxEnabled {W : Nat} (s : State W) : s.frameDone.rxEnabled = s.rxEnabled := rfl
@[simp] theorem frameDone_txNow {W : Nat} (s : State W) : s.frameDone.txNow = s.txNow := rfl
@[simp] theorem frameDone_inputs {W : Nat} (s : State W) : s.frameDone.inputs = s.inputs := rfl
@[simp] theorem frameDone_observed {W : Nat} (s : State W) : s.frameDone.observed = s.observed ++ [.sendReturned s.txNow] := rfl
@[simp] theorem frameDone_draws {W : Nat} (s : State W) : s.frameDone.draws = s.draws := rfl

/-! EDGE.NEWFRAME. -/

@[simp] theorem newFrame_lastFrameEndTimestamp {W : Nat} (s : State W) (t : Timestamp W) : (s.newFrame t).lastFrameEndTimestamp = s.lastFrameEndTimestamp := rfl
@[simp] theorem newFrame_carrier {W : Nat} (s : State W) (t : Timestamp W) : (s.newFrame t).carrier = s.carrier := rfl
@[simp] theorem newFrame_txPhase {W : Nat} (s : State W) (t : Timestamp W) : (s.newFrame t).txPhase = s.txPhase := rfl
@[simp] theorem newFrame_seg {W : Nat} (s : State W) (t : Timestamp W) : (s.newFrame t).seg = s.seg := rfl
@[simp] theorem newFrame_txByte {W : Nat} (s : State W) (t : Timestamp W) : (s.newFrame t).txByte = s.txByte := rfl
@[simp] theorem newFrame_segEnd {W : Nat} (s : State W) (t : Timestamp W) : (s.newFrame t).segEnd = s.segEnd := rfl
@[simp] theorem newFrame_txEnabled {W : Nat} (s : State W) (t : Timestamp W) : (s.newFrame t).txEnabled = s.txEnabled := rfl
@[simp] theorem newFrame_previousEdgeTimestamp {W : Nat} (s : State W) (t : Timestamp W) : (s.newFrame t).previousEdgeTimestamp = t := rfl
@[simp] theorem newFrame_headerSeen {W : Nat} (s : State W) (t : Timestamp W) : (s.newFrame t).headerSeen = false := rfl
@[simp] theorem newFrame_bitCount {W : Nat} (s : State W) (t : Timestamp W) : (s.newFrame t).bitCount = s.bitCount := rfl
@[simp] theorem newFrame_shiftRegister {W : Nat} (s : State W) (t : Timestamp W) : (s.newFrame t).shiftRegister = s.shiftRegister := rfl
@[simp] theorem newFrame_buf {W : Nat} (s : State W) (t : Timestamp W) : (s.newFrame t).buf = s.buf := rfl
@[simp] theorem newFrame_count {W : Nat} (s : State W) (t : Timestamp W) : (s.newFrame t).count = s.count := rfl
@[simp] theorem newFrame_rxEnabled {W : Nat} (s : State W) (t : Timestamp W) : (s.newFrame t).rxEnabled = s.rxEnabled := rfl
@[simp] theorem newFrame_txNow {W : Nat} (s : State W) (t : Timestamp W) : (s.newFrame t).txNow = s.txNow := rfl
@[simp] theorem newFrame_inputs {W : Nat} (s : State W) (t : Timestamp W) : (s.newFrame t).inputs = s.inputs := rfl
@[simp] theorem newFrame_observed {W : Nat} (s : State W) (t : Timestamp W) : (s.newFrame t).observed = s.observed := rfl
@[simp] theorem newFrame_draws {W : Nat} (s : State W) (t : Timestamp W) : (s.newFrame t).draws = s.draws := rfl

/-! EDGE.HEADER. -/

@[simp] theorem headerBoundary_lastFrameEndTimestamp {W : Nat} (s : State W) (t : Timestamp W) : (s.headerBoundary t).lastFrameEndTimestamp = s.lastFrameEndTimestamp := rfl
@[simp] theorem headerBoundary_carrier {W : Nat} (s : State W) (t : Timestamp W) : (s.headerBoundary t).carrier = s.carrier := rfl
@[simp] theorem headerBoundary_txPhase {W : Nat} (s : State W) (t : Timestamp W) : (s.headerBoundary t).txPhase = s.txPhase := rfl
@[simp] theorem headerBoundary_seg {W : Nat} (s : State W) (t : Timestamp W) : (s.headerBoundary t).seg = s.seg := rfl
@[simp] theorem headerBoundary_txByte {W : Nat} (s : State W) (t : Timestamp W) : (s.headerBoundary t).txByte = s.txByte := rfl
@[simp] theorem headerBoundary_segEnd {W : Nat} (s : State W) (t : Timestamp W) : (s.headerBoundary t).segEnd = s.segEnd := rfl
@[simp] theorem headerBoundary_txEnabled {W : Nat} (s : State W) (t : Timestamp W) : (s.headerBoundary t).txEnabled = s.txEnabled := rfl
@[simp] theorem headerBoundary_previousEdgeTimestamp {W : Nat} (s : State W) (t : Timestamp W) : (s.headerBoundary t).previousEdgeTimestamp = t := rfl
@[simp] theorem headerBoundary_headerSeen {W : Nat} (s : State W) (t : Timestamp W) : (s.headerBoundary t).headerSeen = true := rfl
@[simp] theorem headerBoundary_bitCount {W : Nat} (s : State W) (t : Timestamp W) : (s.headerBoundary t).bitCount = 0 := rfl
@[simp] theorem headerBoundary_shiftRegister {W : Nat} (s : State W) (t : Timestamp W) : (s.headerBoundary t).shiftRegister = 0 := rfl
@[simp] theorem headerBoundary_buf {W : Nat} (s : State W) (t : Timestamp W) : (s.headerBoundary t).buf = s.buf := rfl
@[simp] theorem headerBoundary_count {W : Nat} (s : State W) (t : Timestamp W) : (s.headerBoundary t).count = s.count := rfl
@[simp] theorem headerBoundary_rxEnabled {W : Nat} (s : State W) (t : Timestamp W) : (s.headerBoundary t).rxEnabled = s.rxEnabled := rfl
@[simp] theorem headerBoundary_txNow {W : Nat} (s : State W) (t : Timestamp W) : (s.headerBoundary t).txNow = s.txNow := rfl
@[simp] theorem headerBoundary_inputs {W : Nat} (s : State W) (t : Timestamp W) : (s.headerBoundary t).inputs = s.inputs := rfl
@[simp] theorem headerBoundary_observed {W : Nat} (s : State W) (t : Timestamp W) : (s.headerBoundary t).observed = s.observed := rfl
@[simp] theorem headerBoundary_draws {W : Nat} (s : State W) (t : Timestamp W) : (s.headerBoundary t).draws = s.draws := rfl

/-! PUSH. -/

@[simp] theorem pushByte_lastFrameEndTimestamp {W : Nat} (s : State W) (v : Byte) : (s.pushByte v).lastFrameEndTimestamp = s.lastFrameEndTimestamp := rfl
@[simp] theorem pushByte_carrier {W : Nat} (s : State W) (v : Byte) : (s.pushByte v).carrier = s.carrier := rfl
@[simp] theorem pushByte_txPhase {W : Nat} (s : State W) (v : Byte) : (s.pushByte v).txPhase = s.txPhase := rfl
@[simp] theorem pushByte_seg {W : Nat} (s : State W) (v : Byte) : (s.pushByte v).seg = s.seg := rfl
@[simp] theorem pushByte_txByte {W : Nat} (s : State W) (v : Byte) : (s.pushByte v).txByte = s.txByte := rfl
@[simp] theorem pushByte_segEnd {W : Nat} (s : State W) (v : Byte) : (s.pushByte v).segEnd = s.segEnd := rfl
@[simp] theorem pushByte_txEnabled {W : Nat} (s : State W) (v : Byte) : (s.pushByte v).txEnabled = s.txEnabled := rfl
@[simp] theorem pushByte_previousEdgeTimestamp {W : Nat} (s : State W) (v : Byte) : (s.pushByte v).previousEdgeTimestamp = s.previousEdgeTimestamp := rfl
@[simp] theorem pushByte_headerSeen {W : Nat} (s : State W) (v : Byte) : (s.pushByte v).headerSeen = s.headerSeen := rfl
@[simp] theorem pushByte_bitCount {W : Nat} (s : State W) (v : Byte) : (s.pushByte v).bitCount = s.bitCount := rfl
@[simp] theorem pushByte_shiftRegister {W : Nat} (s : State W) (v : Byte) : (s.pushByte v).shiftRegister = s.shiftRegister := rfl
@[simp] theorem pushByte_buf {W : Nat} (s : State W) (v : Byte) : (s.pushByte v).buf = (Memory.shiftUp s.count.val s.count.isLt s.buf).write 0 v := rfl
@[simp] theorem pushByte_count {W : Nat} (s : State W) (v : Byte) : (s.pushByte v).count = if s.count.val < Config.qMax then s.count + 1 else s.count := rfl
@[simp] theorem pushByte_rxEnabled {W : Nat} (s : State W) (v : Byte) : (s.pushByte v).rxEnabled = s.rxEnabled := rfl
@[simp] theorem pushByte_txNow {W : Nat} (s : State W) (v : Byte) : (s.pushByte v).txNow = s.txNow := rfl
@[simp] theorem pushByte_inputs {W : Nat} (s : State W) (v : Byte) : (s.pushByte v).inputs = s.inputs := rfl
@[simp] theorem pushByte_observed {W : Nat} (s : State W) (v : Byte) : (s.pushByte v).observed = s.observed := rfl
@[simp] theorem pushByte_draws {W : Nat} (s : State W) (v : Byte) : (s.pushByte v).draws = s.draws := rfl

/-! The shift of EDGE.DATA. -/

@[simp] theorem accumulate_lastFrameEndTimestamp {W : Nat} (s : State W) (bit : Bool) : (s.accumulate bit).lastFrameEndTimestamp = s.lastFrameEndTimestamp := rfl
@[simp] theorem accumulate_carrier {W : Nat} (s : State W) (bit : Bool) : (s.accumulate bit).carrier = s.carrier := rfl
@[simp] theorem accumulate_txPhase {W : Nat} (s : State W) (bit : Bool) : (s.accumulate bit).txPhase = s.txPhase := rfl
@[simp] theorem accumulate_seg {W : Nat} (s : State W) (bit : Bool) : (s.accumulate bit).seg = s.seg := rfl
@[simp] theorem accumulate_txByte {W : Nat} (s : State W) (bit : Bool) : (s.accumulate bit).txByte = s.txByte := rfl
@[simp] theorem accumulate_segEnd {W : Nat} (s : State W) (bit : Bool) : (s.accumulate bit).segEnd = s.segEnd := rfl
@[simp] theorem accumulate_txEnabled {W : Nat} (s : State W) (bit : Bool) : (s.accumulate bit).txEnabled = s.txEnabled := rfl
@[simp] theorem accumulate_previousEdgeTimestamp {W : Nat} (s : State W) (bit : Bool) : (s.accumulate bit).previousEdgeTimestamp = s.previousEdgeTimestamp := rfl
@[simp] theorem accumulate_headerSeen {W : Nat} (s : State W) (bit : Bool) : (s.accumulate bit).headerSeen = s.headerSeen := rfl
@[simp] theorem accumulate_bitCount {W : Nat} (s : State W) (bit : Bool) : (s.accumulate bit).bitCount = s.bitCount + 1 := rfl
@[simp] theorem accumulate_shiftRegister {W : Nat} (s : State W) (bit : Bool) : (s.accumulate bit).shiftRegister = shiftIn s.shiftRegister bit := rfl
@[simp] theorem accumulate_buf {W : Nat} (s : State W) (bit : Bool) : (s.accumulate bit).buf = s.buf := rfl
@[simp] theorem accumulate_count {W : Nat} (s : State W) (bit : Bool) : (s.accumulate bit).count = s.count := rfl
@[simp] theorem accumulate_rxEnabled {W : Nat} (s : State W) (bit : Bool) : (s.accumulate bit).rxEnabled = s.rxEnabled := rfl
@[simp] theorem accumulate_txNow {W : Nat} (s : State W) (bit : Bool) : (s.accumulate bit).txNow = s.txNow := rfl
@[simp] theorem accumulate_inputs {W : Nat} (s : State W) (bit : Bool) : (s.accumulate bit).inputs = s.inputs := rfl
@[simp] theorem accumulate_observed {W : Nat} (s : State W) (bit : Bool) : (s.accumulate bit).observed = s.observed := rfl
@[simp] theorem accumulate_draws {W : Nat} (s : State W) (bit : Bool) : (s.accumulate bit).draws = s.draws := rfl

/-! Completion of a byte. -/

@[simp] theorem complete_lastFrameEndTimestamp {W : Nat} (s : State W) : s.complete.lastFrameEndTimestamp = s.lastFrameEndTimestamp := rfl
@[simp] theorem complete_carrier {W : Nat} (s : State W) : s.complete.carrier = s.carrier := rfl
@[simp] theorem complete_txPhase {W : Nat} (s : State W) : s.complete.txPhase = s.txPhase := rfl
@[simp] theorem complete_seg {W : Nat} (s : State W) : s.complete.seg = s.seg := rfl
@[simp] theorem complete_txByte {W : Nat} (s : State W) : s.complete.txByte = s.txByte := rfl
@[simp] theorem complete_segEnd {W : Nat} (s : State W) : s.complete.segEnd = s.segEnd := rfl
@[simp] theorem complete_txEnabled {W : Nat} (s : State W) : s.complete.txEnabled = s.txEnabled := rfl
@[simp] theorem complete_previousEdgeTimestamp {W : Nat} (s : State W) : s.complete.previousEdgeTimestamp = s.previousEdgeTimestamp := rfl
@[simp] theorem complete_headerSeen {W : Nat} (s : State W) : s.complete.headerSeen = s.headerSeen := rfl
@[simp] theorem complete_bitCount {W : Nat} (s : State W) : s.complete.bitCount = 0 := rfl
@[simp] theorem complete_shiftRegister {W : Nat} (s : State W) : s.complete.shiftRegister = 0 := rfl
@[simp] theorem complete_buf {W : Nat} (s : State W) : s.complete.buf = (s.pushByte s.shiftRegister).buf := rfl
@[simp] theorem complete_count {W : Nat} (s : State W) : s.complete.count = (s.pushByte s.shiftRegister).count := rfl
@[simp] theorem complete_rxEnabled {W : Nat} (s : State W) : s.complete.rxEnabled = s.rxEnabled := rfl
@[simp] theorem complete_txNow {W : Nat} (s : State W) : s.complete.txNow = s.txNow := rfl
@[simp] theorem complete_inputs {W : Nat} (s : State W) : s.complete.inputs = s.inputs := rfl
@[simp] theorem complete_observed {W : Nat} (s : State W) : s.complete.observed = s.observed := rfl
@[simp] theorem complete_draws {W : Nat} (s : State W) : s.complete.draws = s.draws := rfl

/-! Time passes up to the sequencer's step. -/

@[simp] theorem advanceTo_lastFrameEndTimestamp {W : Nat} (s : State W) (k d : Nat) (rest : List (Input W)) : (s.advanceTo k d rest).lastFrameEndTimestamp = s.lastFrameEndTimestamp := rfl
@[simp] theorem advanceTo_carrier {W : Nat} (s : State W) (k d : Nat) (rest : List (Input W)) : (s.advanceTo k d rest).carrier = s.carrier := rfl
@[simp] theorem advanceTo_txPhase {W : Nat} (s : State W) (k d : Nat) (rest : List (Input W)) : (s.advanceTo k d rest).txPhase = s.txPhase := rfl
@[simp] theorem advanceTo_seg {W : Nat} (s : State W) (k d : Nat) (rest : List (Input W)) : (s.advanceTo k d rest).seg = s.seg := rfl
@[simp] theorem advanceTo_txByte {W : Nat} (s : State W) (k d : Nat) (rest : List (Input W)) : (s.advanceTo k d rest).txByte = s.txByte := rfl
@[simp] theorem advanceTo_segEnd {W : Nat} (s : State W) (k d : Nat) (rest : List (Input W)) : (s.advanceTo k d rest).segEnd = s.segEnd := rfl
@[simp] theorem advanceTo_txEnabled {W : Nat} (s : State W) (k d : Nat) (rest : List (Input W)) : (s.advanceTo k d rest).txEnabled = s.txEnabled := rfl
@[simp] theorem advanceTo_previousEdgeTimestamp {W : Nat} (s : State W) (k d : Nat) (rest : List (Input W)) : (s.advanceTo k d rest).previousEdgeTimestamp = s.previousEdgeTimestamp := rfl
@[simp] theorem advanceTo_headerSeen {W : Nat} (s : State W) (k d : Nat) (rest : List (Input W)) : (s.advanceTo k d rest).headerSeen = s.headerSeen := rfl
@[simp] theorem advanceTo_bitCount {W : Nat} (s : State W) (k d : Nat) (rest : List (Input W)) : (s.advanceTo k d rest).bitCount = s.bitCount := rfl
@[simp] theorem advanceTo_shiftRegister {W : Nat} (s : State W) (k d : Nat) (rest : List (Input W)) : (s.advanceTo k d rest).shiftRegister = s.shiftRegister := rfl
@[simp] theorem advanceTo_buf {W : Nat} (s : State W) (k d : Nat) (rest : List (Input W)) : (s.advanceTo k d rest).buf = s.buf := rfl
@[simp] theorem advanceTo_count {W : Nat} (s : State W) (k d : Nat) (rest : List (Input W)) : (s.advanceTo k d rest).count = s.count := rfl
@[simp] theorem advanceTo_rxEnabled {W : Nat} (s : State W) (k d : Nat) (rest : List (Input W)) : (s.advanceTo k d rest).rxEnabled = s.rxEnabled := rfl
@[simp] theorem advanceTo_txNow {W : Nat} (s : State W) (k d : Nat) (rest : List (Input W)) : (s.advanceTo k d rest).txNow = later s.txNow k := rfl
@[simp] theorem advanceTo_inputs {W : Nat} (s : State W) (k d : Nat) (rest : List (Input W)) : (s.advanceTo k d rest).inputs = .elapse (d - k) :: rest := rfl
@[simp] theorem advanceTo_observed {W : Nat} (s : State W) (k d : Nat) (rest : List (Input W)) : (s.advanceTo k d rest).observed = s.observed := rfl
@[simp] theorem advanceTo_draws {W : Nat} (s : State W) (k d : Nat) (rest : List (Input W)) : (s.advanceTo k d rest).draws = s.draws := rfl

end Sys2Proof.Machine.State
end

