-- ==== Sys2Proof/Laws/Receiver.lean ====
section
/-! SUPPORT. What taking an edge, pushing and reading can do to the state. -/

namespace Sys2Proof.Machine

variable {W : Nat}

/-! The queue. -/

/-- Every slot after a PUSH (R140). -/
theorem pushByte_read (s : State W) (v : Byte) (j : Slot) :
    (s.pushByte v).buf.read j =
      if j.val = 0 then v
      else if j.val ≤ s.count.val then s.buf.read ⟨j.val - 1, by omega⟩
      else s.buf.read j := by
  rw [State.pushByte_buf, Memory.read_write, Memory.read_shiftUp]
  by_cases h : j.val = 0
  · rw [if_pos (Fin.ext h.symm), if_pos h]
  · rw [if_neg (fun e => h (congrArg Fin.val e).symm), if_neg h]
    by_cases h2 : j.val ≤ s.count.val
    · rw [if_pos ⟨by omega, h2⟩, if_pos h2]
    · rw [if_neg (fun e => h2 e.2), if_neg h2]

/-- The count after a PUSH (R140): it stops at 7. -/
theorem pushByte_count_val (s : State W) (v : Byte) : (s.pushByte v).count.val = min (s.count.val + 1) 7 := by
  rw [State.pushByte_count]
  split
  · next h => rw [Fin.val_add_one_of_lt' (by simp at h; omega)]; simp at h; omega
  · next h => simp at h; omega

theorem pushByte_wf {s : State W} (h : s.buf.wf) (v : Byte) : (s.pushByte v).buf.wf :=
  Memory.wf_write (Memory.wf_shiftUp h _ _) _ _

theorem empty_iff (s : State W) : s.empty = true ↔ s.count = 0 := by simp [State.empty]

theorem dropOldest_empty {s : State W} (h : s.count = 0) : s.dropOldest = s := by
  simp [State.dropOldest, State.empty, h]

theorem oldest_empty {s : State W} (h : s.count = 0) : s.oldest = 0 := by
  simp [State.oldest, State.empty, h]

theorem count_sub_one {s : State W} {c : Slot} (h : s.count.val = c.val + 1) : s.count - 1 = c := by
  apply Fin.ext
  have hc := s.count.isLt
  rw [Fin.sub_val_of_le (Fin.le_def.mpr (by simp; omega))]
  simp; omega

theorem dropOldest_nonempty {s : State W} {c : Slot} (h : s.count.val = c.val + 1) :
    s.dropOldest = { s with count := c } := by
  have h0 : s.count ≠ 0 := fun e => by rw [e] at h; simp at h
  simp [State.dropOldest, State.empty, h0, count_sub_one h]

theorem oldest_nonempty {s : State W} {c : Slot} (h : s.count.val = c.val + 1) : s.oldest = s.buf.read c := by
  have h0 : s.count ≠ 0 := fun e => by rw [e] at h; simp at h
  simp [State.oldest, State.empty, h0, count_sub_one h]

/-! The edge. -/

theorem takeEdge_disabled {s : State W} (h : s.rxEnabled = false) (t : Timestamp W) : s.takeEdge t = s := by
  simp [State.takeEdge, h]

theorem takeEdge_newFrame {s : State W} {t : Timestamp W} (h : s.rxEnabled = true) (hc : s.gapClass t = .newFrame) :
    s.takeEdge t = s.newFrame t := by
  simp [State.takeEdge, h, hc]

theorem takeEdge_header {s : State W} {t : Timestamp W} (h : s.rxEnabled = true) (hc : s.gapClass t = .header) :
    s.takeEdge t = s.headerBoundary t := by
  simp [State.takeEdge, h, hc]

theorem takeEdge_data {s : State W} {t : Timestamp W} (h : s.rxEnabled = true) (hc : s.gapClass t = .data) :
    s.takeEdge t = s.dataEdge t := by
  simp [State.takeEdge, h, hc]

/-- What an edge can do, all of it: not delivered, or one of the three arms (R121). -/
theorem takeEdge_cases (s : State W) (t : Timestamp W) :
    (s.rxEnabled = false ∧ s.takeEdge t = s) ∨
    (s.rxEnabled = true ∧ s.gapClass t = .newFrame ∧ s.takeEdge t = s.newFrame t) ∨
    (s.rxEnabled = true ∧ s.gapClass t = .header ∧ s.takeEdge t = s.headerBoundary t) ∨
    (s.rxEnabled = true ∧ s.gapClass t = .data ∧ s.takeEdge t = s.dataEdge t) := by
  cases h : s.rxEnabled with
  | false => exact .inl ⟨rfl, takeEdge_disabled h t⟩
  | true =>
    cases hc : s.gapClass t with
    | newFrame => exact .inr (.inl ⟨rfl, rfl, takeEdge_newFrame h hc⟩)
    | header => exact .inr (.inr (.inl ⟨rfl, rfl, takeEdge_header h hc⟩))
    | data => exact .inr (.inr (.inr ⟨rfl, rfl, takeEdge_data h hc⟩))

theorem gapClass_newFrame {s : State W} {t : Timestamp W} :
    s.gapClass t = .newFrame ↔ 15000 < elapsed t s.previousEdgeTimestamp := classify_eq_newFrame

theorem gapClass_header {s : State W} {t : Timestamp W} :
    s.gapClass t = .header ↔ elapsed t s.previousEdgeTimestamp ≤ 15000 ∧ s.headerSeen = false := classify_eq_header

theorem gapClass_data {s : State W} {t : Timestamp W} :
    s.gapClass t = .data ↔ elapsed t s.previousEdgeTimestamp ≤ 15000 ∧ s.headerSeen = true := classify_eq_data

theorem lastBit_iff (s : State W) : s.lastBit = true ↔ s.bitCount = 6 := by
  have key : ∀ n : Fin 8, (decide ((n + 1).val = 7) = true) ↔ n = 6 := by decide
  exact key s.bitCount

/-- A data edge that is not the seventh (R124). -/
theorem dataEdge_shift {s : State W} (h : s.bitCount ≠ 6) (t : Timestamp W) :
    s.dataEdge t = { s.accumulate (dataBit (s.gap t)) with previousEdgeTimestamp := t } := by
  have hl : s.lastBit = false := by simpa using fun e => h ((lastBit_iff s).mp e)
  simp [State.dataEdge, hl]

/-- The seventh data edge (R125). -/
theorem dataEdge_complete {s : State W} (h : s.bitCount = 6) (t : Timestamp W) :
    s.dataEdge t =
      { s.pushByte (shiftIn s.shiftRegister (dataBit (s.gap t))) with
        shiftRegister := 0, bitCount := 0, previousEdgeTimestamp := t } := by
  have hl : s.lastBit = true := (lastBit_iff s).mpr h
  simp only [State.dataEdge, hl, if_true]
  rfl

end Sys2Proof.Machine
end

