-- ==== Sys2Proof/Laws/Wire.lean ====
section
/-! SUPPORT. What emitting a symbol, several symbols and a frame does to the state: the clock and the observations, and
nothing else; and that the ten symbols are the twenty segments. -/

namespace Sys2Proof.Machine

variable {W : Nat}

/-- The carrier changes of the symbols `ys`, as offsets from where the first begins at offset `n`. -/
def symOffsets : Nat → List Sym → List (Nat × Carrier)
  | _, [] => []
  | n, y :: ys => (n, .on) :: (n + y.mark, .off) :: symOffsets (n + (y.mark + y.space)) ys

/-- How long the symbols `ys` last. -/
def symTotal (ys : List Sym) : Nat := (ys.map (fun y => y.mark + y.space)).sum

/-- Changes at offsets from `t`, as observations. -/
def wave (t : Timestamp W) (os : List (Nat × Carrier)) : List (Observation W) :=
  os.map (fun o => .carrier (later t o.1) o.2)

theorem symOffsets_shift (d n : Nat) (ys : List Sym) :
    symOffsets (d + n) ys = (symOffsets n ys).map (fun o => (d + o.1, o.2)) := by
  induction ys generalizing n with
  | nil => rfl
  | cons y ys ih => simp [symOffsets, Nat.add_assoc, ih]

theorem wave_later (t : Timestamp W) (d : Nat) (ys : List Sym) :
    wave (later t d) (symOffsets 0 ys) = wave t (symOffsets d ys) := by
  have h := symOffsets_shift d 0 ys
  rw [Nat.add_zero] at h
  rw [h]
  simp [wave, later_later]

/-- One symbol, whatever the carrier was: only the changes are observed. -/
theorem emitSym_eq_any (s : State W) (y : Sym) :
    s.emitSym y = { s with
      carrier := .off
      txNow := later s.txNow (y.mark + y.space)
      observed := s.observed ++ (if s.carrier = .on then [] else [.carrier s.txNow .on]) ++
        [.carrier (later s.txNow y.mark) .off] } := by
  simp [State.emitSym, State.emitSegment, State.setCarrier, State.advance, later_later]

/-- One symbol, begun with the carrier off. -/
theorem emitSym_eq {s : State W} (h : s.carrier = .off) (y : Sym) :
    s.emitSym y = { s with
      txNow := later s.txNow (y.mark + y.space)
      observed := s.observed ++ [.carrier s.txNow .on, .carrier (later s.txNow y.mark) .off] } := by
  cases s
  cases h
  simp [State.emitSym, State.emitSegment, State.setCarrier, State.advance, later_later]

/-- Symbols one after the other, begun with the carrier off. -/
theorem foldl_emitSym_eq (ys : List Sym) {s : State W} (h : s.carrier = .off) :
    ys.foldl State.emitSym s = { s with
      txNow := later s.txNow (symTotal ys)
      observed := s.observed ++ wave s.txNow (symOffsets 0 ys) } := by
  induction ys generalizing s with
  | nil => simp [symTotal, symOffsets, wave]
  | cons y ys ih =>
    rw [List.foldl_cons, emitSym_eq h]
    refine (ih (by exact h)).trans ?_
    simp [symTotal, symOffsets, wave_later, later_later]
    simp [wave]

/-- At least one symbol, whatever the carrier was: only the changes are observed. -/
theorem foldl_emitSym_eq_any (s : State W) (y : Sym) (ys : List Sym) :
    (y :: ys).foldl State.emitSym s = { s with
      carrier := .off
      txNow := later s.txNow (symTotal (y :: ys))
      observed := s.observed ++
        (if s.carrier = .on then (wave s.txNow (symOffsets 0 (y :: ys))).drop 1
         else wave s.txNow (symOffsets 0 (y :: ys))) } := by
  rw [List.foldl_cons, emitSym_eq_any]
  refine (foldl_emitSym_eq ys (by rfl)).trans ?_
  simp only [symTotal, symOffsets, wave_later, later_later, List.map_cons, List.sum_cons, Nat.zero_add]
  cases hc : s.carrier <;> simp [wave]

/-! The ten symbols are the twenty segments. -/

/-- Where segment `k` starts, from the frame's start. -/
def segOffset (b : Byte) (k : SegIx) : Nat :=
  (((List.finRange Config.segs).filter (fun i => i.val < k.val)).map (fun i => dur i b)).sum

theorem frameWave_eq (t : Timestamp W) (b : Byte) :
    frameWave t b = wave t ((List.finRange Config.segs).map (fun k => (segOffset b k, level k))) := by
  simp [frameWave, wave, segStart, segOffset]

theorem segsBefore_eq_take (k : SegIx) :
    (List.finRange Config.segs).filter (fun i => i.val < k.val) = (List.finRange Config.segs).take k.val := by
  revert k; decide

/-- The durations, segment by segment (R71), are the marks and spaces, symbol by symbol (R70, R72). -/
theorem durs_eq_marks_and_spaces (b : Byte) :
    (List.finRange Config.segs).map (fun k => dur k b) = (frameSyms b).flatMap (fun y => [y.mark, y.space]) := by
  have mark_data : ∀ i, (dataSym b i).mark = 562 := by intro i; unfold dataSym; split <;> rfl
  have space_data : ∀ i, (dataSym b i).space = if b.getLsbD i then 1687 else 562 := by
    intro i; unfold dataSym; split <;> rfl
  simp only [frameSyms, List.flatMap_cons, List.flatMap_nil, mark_data, space_data]
  rfl

/-- The offsets of alternating marks and spaces are their running sums. -/
theorem symOffsets_eq_running_sums (ys : List Sym) (n : Nat) :
    symOffsets n ys = (List.range (2 * ys.length)).map (fun k =>
      (n + ((ys.flatMap (fun y => [y.mark, y.space])).take k).sum, if k % 2 = 0 then .on else .off)) := by
  induction ys generalizing n with
  | nil => rfl
  | cons y ys ih =>
    have hl : 2 * (y :: ys).length = 2 * ys.length + 1 + 1 := by simp; omega
    rw [hl, List.range_succ_eq_map, List.range_succ_eq_map]
    simp [symOffsets, ih, Function.comp_def, Nat.add_assoc]

theorem symOffsets_frameSyms (b : Byte) :
    symOffsets 0 (frameSyms b) = (List.finRange Config.segs).map (fun k => (segOffset b k, level k)) := by
  have hr : List.range (2 * (frameSyms b).length) = (List.finRange Config.segs).map Fin.val := rfl
  rw [symOffsets_eq_running_sums, hr]
  simp only [List.map_map, segOffset, segsBefore_eq_take, List.map_take, durs_eq_marks_and_spaces]
  simp [Function.comp_def, level]

theorem symTotal_frameSyms (b : Byte) : symTotal (frameSyms b) = 24054 + 1125 * popcount b := by
  revert b; decide +kernel

/-- A frame begun with the carrier off. -/
theorem emitFrame_eq {s : State W} (h : s.carrier = .off) (b : Byte) :
    s.emitFrame b = { s with
      txNow := later s.txNow (24054 + 1125 * popcount b)
      observed := s.observed ++ frameWave s.txNow b } := by
  rw [State.emitFrame, foldl_emitSym_eq _ h, symTotal_frameSyms, symOffsets_frameSyms, frameWave_eq]

/-- A frame, whatever the carrier was: only the changes are observed. -/
theorem emitFrame_eq_any (s : State W) (b : Byte) :
    s.emitFrame b = { s with
      carrier := .off
      txNow := later s.txNow (24054 + 1125 * popcount b)
      observed := s.observed ++ (if s.carrier = .on then (frameWave s.txNow b).drop 1 else frameWave s.txNow b) } := by
  rw [frameWave_eq, ← symOffsets_frameSyms, ← symTotal_frameSyms b]
  exact foldl_emitSym_eq_any s _ _

end Sys2Proof.Machine
end

