-- ==== Sys2Proof/Laws/Exec.lean ====
section
/-! SUPPORT. What each guarded meaning, and a step, can answer: when it is a next state, and which. -/

namespace Sys2Proof.Machine

variable {W : Nat}

theorem busy_eq_false {s : State W} : s.busy = false ↔ s.txPhase = .idle := by
  cases h : s.txPhase <;> simp [State.busy, h]

theorem busy_eq_true {s : State W} : s.busy = true ↔ s.txPhase ≠ .idle := by
  cases h : s.txPhase <;> simp [State.busy, h]

/-! The transmitter and the wire. -/

theorem execBeginTx_next {s t : State W} :
    execBeginTx s = .next t ↔ s.txPhase = .idle ∧ t = { s.setCarrier .off with txEnabled := true } := by
  rw [← busy_eq_false]
  unfold execBeginTx
  cases s.busy <;> simp [eq_comm]

/-- The guard shared by SEND, TX.ACCEPT and the wire rows. -/
theorem onReadyTx_next {s s' t : State W} :
    onReadyTx s s' = .next t ↔ s.txEnabled = true ∧ s.txPhase = .idle ∧ t = s' := by
  rw [← busy_eq_false]
  unfold onReadyTx
  cases s.txEnabled <;> cases s.busy <;> simp [eq_comm]

/-- The state a SEND leaves, begun with the carrier off. -/
theorem sent_eq {s : State W} (h : s.carrier = .off) (b : Byte) :
    s.sent b = { s with
      txNow := later s.sendStart (24054 + 1125 * popcount b)
      lastFrameEndTimestamp := earlier (later s.sendStart (24054 + 1125 * popcount b)) 1000
      txPhase := .idle
      txByte := b
      seg := lastSeg
      segEnd := later s.sendStart (24054 + 1125 * popcount b)
      observed := s.observed ++ frameWave s.sendStart b ++
        [.sendReturned (later s.sendStart (24054 + 1125 * popcount b))] } := by
  unfold State.sent
  rw [emitFrame_eq (by exact h)]
  rfl

/-- The same, whatever the carrier was: only the changes are observed. -/
theorem sent_eq_any (s : State W) (b : Byte) :
    s.sent b = { s with
      carrier := .off
      txNow := later s.sendStart (24054 + 1125 * popcount b)
      lastFrameEndTimestamp := earlier (later s.sendStart (24054 + 1125 * popcount b)) 1000
      txPhase := .idle
      txByte := b
      seg := lastSeg
      segEnd := later s.sendStart (24054 + 1125 * popcount b)
      observed := s.observed ++
        (if s.carrier = .on then (frameWave s.sendStart b).drop 1 else frameWave s.sendStart b) ++
        [.sendReturned (later s.sendStart (24054 + 1125 * popcount b))] } := by
  unfold State.sent
  rw [emitFrame_eq_any]
  rfl

theorem execTxWait_next {s t : State W} :
    execTxWait s = .next t ↔
      s.txPhase = .wait ∧ t = if s.spacingMet then s.startSegment 0 else s := by
  unfold execTxWait
  split
  · next h => cases s.spacingMet <;> simp [h, eq_comm]
  · next h => simp [h]

theorem segmentOver_iff (s : State W) :
    s.segmentOver = true ↔ s.txPhase = .emit ∧ s.seg ≠ lastSeg ∧ s.txNow = s.segEnd := by
  simp [State.segmentOver, and_assoc]

theorem frameOver_iff (s : State W) :
    s.frameOver = true ↔ s.txPhase = .emit ∧ s.seg = lastSeg ∧ s.txNow = s.segEnd := by
  simp [State.frameOver, and_assoc]

theorem execTxSeg_next {s t : State W} :
    execTxSeg s = .next t ↔ s.segmentOver = true ∧ t = s.startSegment (nextSeg s.seg) := by
  unfold execTxSeg
  split
  · next h => simp [h, eq_comm]
  · next h => simp [h]

theorem execTxDone_next {s t : State W} :
    execTxDone s = .next t ↔ s.frameOver = true ∧ t = s.frameDone := by
  unfold execTxDone
  split
  · next h => simp [h, eq_comm]
  · next h => simp [h]

/-! The arms of EDGE. -/

theorem onArm_next {c : GapClass} {e : Timestamp W} {s s' t : State W} :
    onArm c e s s' = .next t ↔ s.rxEnabled = true ∧ s.gapClass e = c ∧ t = s' := by
  unfold onArm
  split
  · next h => simp [h, eq_comm]
  · next h => simp only [reduceCtorEq, false_iff]; exact fun ⟨a, b, _⟩ => h ⟨a, b⟩

/-! Every operation at once. -/

/-- At the default width the operations are the host's `exec`. -/
theorem execAt_default (i : Instr) (s : State) : execAt i s = exec i s := by
  cases i <;> rfl

theorem stepAt_default (s : State) : stepAt Config.hostAtomic s = step s :=
  congrArg (fun ex => stepWith Config.hostAtomic ex s) (funext fun i => funext fun s => execAt_default i s)

/-- What an operation does when it answers a next state `t`, and the condition it does it under. -/
abbrev Effect (i : Instr W) (s t : State W) : Prop :=
  match i with
  | .beginTx => s.txPhase = .idle ∧ t = { s.setCarrier .off with txEnabled := true }
  | .send b => s.txEnabled = true ∧ s.txPhase = .idle ∧ t = s.sent b
  | .beginRx => t = { s with rxEnabled := true }
  | .edge e => t = s.takeEdge e
  | .edgeNewFrame e => s.rxEnabled = true ∧ s.gapClass e = .newFrame ∧ t = s.newFrame e
  | .edgeHeader e => s.rxEnabled = true ∧ s.gapClass e = .header ∧ t = s.headerBoundary e
  | .edgeData e => s.rxEnabled = true ∧ s.gapClass e = .data ∧ t = s.dataEdge e
  | .push v => t = s.pushByte v
  | .avail => t = s.observe (.available s.count)
  | .read => t = s.dropOldest.observe (.readByte s.oldest)
  | .reserved110 => False
  | .reserved111 => False
  | .frame b => s.txEnabled = true ∧ s.txPhase = .idle ∧ t = s.emitFrame b
  | .symH => s.txEnabled = true ∧ s.txPhase = .idle ∧ t = s.emitSym .H
  | .sym0 => s.txEnabled = true ∧ s.txPhase = .idle ∧ t = s.emitSym .zero
  | .sym1 => s.txEnabled = true ∧ s.txPhase = .idle ∧ t = s.emitSym .one
  | .symS => s.txEnabled = true ∧ s.txPhase = .idle ∧ t = s.emitSym .S
  | .txAccept b => s.txEnabled = true ∧ s.txPhase = .idle ∧ t = s.accept b
  | .txWait => s.txPhase = .wait ∧ t = if s.spacingMet then s.startSegment 0 else s
  | .txSeg => s.segmentOver = true ∧ t = s.startSegment (nextSeg s.seg)
  | .txDone => s.frameOver = true ∧ t = s.frameDone

/-- Every operation that answers a next state has had its effect, at every width. -/
theorem execAt_next_cases {i : Instr W} {s t : State W} (h : execAt i s = .next t) : Effect i s t := by
  cases i with
  | beginTx => exact execBeginTx_next.mp h
  | send b => exact onReadyTx_next.mp h
  | beginRx => cases h; rfl
  | edge e => cases h; rfl
  | edgeNewFrame e => exact onArm_next.mp h
  | edgeHeader e => exact onArm_next.mp h
  | edgeData e => exact onArm_next.mp h
  | push v => cases h; rfl
  | avail => cases h; rfl
  | read => cases h; rfl
  | reserved110 => cases h
  | reserved111 => cases h
  | frame b => exact onReadyTx_next.mp h
  | symH => exact onReadyTx_next.mp h
  | sym0 => exact onReadyTx_next.mp h
  | sym1 => exact onReadyTx_next.mp h
  | symS => exact onReadyTx_next.mp h
  | txAccept b => exact onReadyTx_next.mp h
  | txWait => exact execTxWait_next.mp h
  | txSeg => exact execTxSeg_next.mp h
  | txDone => exact execTxDone_next.mp h

theorem exec_next_cases {i : Instr} {s t : State} (h : exec i s = .next t) : Effect i s t :=
  execAt_next_cases ((execAt_default i s).trans h)

/-! The step. -/

theorem sequencerDue_some {s : State W} {d k : Nat} {i : Instr W} (h : s.sequencerDue d = some (k, i)) :
    k ≤ d ∧ ((s.txPhase = .wait ∧ k = spacingLeft s.lastFrameEndTimestamp s.txNow ∧ i = .txWait) ∨
      (s.txPhase = .emit ∧ k = elapsed s.segEnd s.txNow ∧ s.seg ≠ lastSeg ∧ i = .txSeg) ∨
      (s.txPhase = .emit ∧ k = elapsed s.segEnd s.txNow ∧ s.seg = lastSeg ∧ i = .txDone)) := by
  unfold State.sequencerDue at h
  rw [Option.filter_eq_some_iff] at h
  obtain ⟨hn, hk⟩ := h
  refine ⟨by simpa using hk, ?_⟩
  unfold State.sequencerNext at hn
  cases hp : s.txPhase with
  | idle => simp [hp] at hn
  | wait => simp [hp] at hn; simp [hn]
  | emit =>
    simp only [hp, Option.some.injEq, Prod.mk.injEq] at hn
    by_cases hs : s.seg = lastSeg
    · simp only [hs, if_true] at hn; simp [hs, hn]
    · simp only [hs, if_false] at hn; simp [hs, hn]

/-- What a step over any operations that answers a next state has done. -/
theorem stepWith_next_cases {atomic : Bool} {ex : Instr W → State W → Host.Outcome (State W) Fault Refusal}
    {s t : State W} (h : stepWith atomic ex s = .next t) :
    (s.inputs = [] ∧ t = s) ∨
    (∃ w rest i, s.inputs = .op w :: rest ∧ decode w = .ok i ∧ ex i { s with inputs := rest } = .next t) ∨
    (∃ w e rest, s.inputs = .tie w e :: rest ∧ t = s.arbitrate atomic w e rest) ∨
    (∃ b rest, s.inputs = .present b :: rest ∧ ex (.txAccept b) { s with inputs := rest } = .next t) ∨
    (∃ d rest k i, s.inputs = .elapse d :: rest ∧ s.sequencerDue d = some (k, i) ∧
      ex i (s.advanceTo k d rest) = .next t) ∨
    (∃ d rest, s.inputs = .elapse d :: rest ∧ s.sequencerDue d = none ∧
      t = { s.advance d with inputs := rest }) := by
  unfold stepWith at h
  split at h
  · next hi => cases h; exact .inl ⟨hi, rfl⟩
  · next w rest hi =>
    split at h
    · next i hd => exact .inr (.inl ⟨w, rest, i, hi, hd, h⟩)
    · cases h
  · next w e rest hi => cases h; exact .inr (.inr (.inl ⟨w, e, rest, hi, rfl⟩))
  · next b rest hi => exact .inr (.inr (.inr (.inl ⟨b, rest, hi, h⟩)))
  · next d rest hi =>
    split at h
    · next k i hd => exact .inr (.inr (.inr (.inr (.inl ⟨d, rest, k, i, hi, hd, h⟩))))
    · next hd => cases h; exact .inr (.inr (.inr (.inr (.inr ⟨d, rest, hi, hd, rfl⟩))))

/-- What a step of the machine that answers a next state has done. -/
theorem step_next_cases {s t : State} (h : step s = .next t) :
    (s.inputs = [] ∧ t = s) ∨
    (∃ w rest i, s.inputs = .op w :: rest ∧ decode w = .ok i ∧ exec i { s with inputs := rest } = .next t) ∨
    (∃ w e rest, s.inputs = .tie w e :: rest ∧ t = s.arbitrate Config.hostAtomic w e rest) ∨
    (∃ b rest, s.inputs = .present b :: rest ∧ exec (.txAccept b) { s with inputs := rest } = .next t) ∨
    (∃ d rest k i, s.inputs = .elapse d :: rest ∧ s.sequencerDue d = some (k, i) ∧
      exec i (s.advanceTo k d rest) = .next t) ∨
    (∃ d rest, s.inputs = .elapse d :: rest ∧ s.sequencerDue d = none ∧
      t = { s.advance d with inputs := rest }) :=
  stepWith_next_cases h

end Sys2Proof.Machine
end

