-- ==== Sys2Proof/Laws/Link.lean ====
section
/-! SUPPORT. The falling edges that symbols on the wire make through the ideal channel. -/

namespace Sys2Proof.Machine

variable {W : Nat}

theorem channelEdges_append (ea : EdgeAt) (offset : Timestamp W) (a b : List (Observation W)) :
    channelEdges ea offset (a ++ b) = channelEdges ea offset a ++ channelEdges ea offset b := by
  induction a with
  | nil => rfl
  | cons o os ih => cases o <;> simp [channelEdges, ih]; split <;> simp

theorem later_add (t : Timestamp W) (n : Nat) (offset : Timestamp W) : later t n + offset = later (t + offset) n := by
  simp [later, add_comm, add_left_comm]

/-- With edges at mark starts, each gap is one symbol's mark and space. -/
theorem channelEdges_markStart (y : Sym) (ys : List Sym) (t offset : Timestamp W) (n : Nat) :
    channelEdges .markStart offset (wave t (symOffsets n (y :: ys))) =
      later (t + offset) n ::
        edgesFrom (later (t + offset) n) (((y :: ys).dropLast).map (fun y => y.mark + y.space)) := by
  induction ys generalizing n y with
  | nil => simp [symOffsets, wave, channelEdges, EdgeAt.level, edgesFrom, later_add]
  | cons z ys ih =>
    have h := ih z (n + (y.mark + y.space))
    rw [symOffsets]
    simp only [wave, List.map_cons, channelEdges] at h ⊢
    rw [if_pos (by decide), if_neg (by decide), h]
    simp [edgesFrom, later_later, later_add]

/-- With edges at mark ends, each gap is one symbol's space and the next one's mark. -/
theorem channelEdges_markEnd (y : Sym) (ys : List Sym) (t offset : Timestamp W) (n : Nat) :
    channelEdges .markEnd offset (wave t (symOffsets n (y :: ys))) =
      later (t + offset) (n + y.mark) ::
        edgesFrom (later (t + offset) (n + y.mark)) (((y :: ys).zip ys).map (fun p => p.1.space + p.2.mark)) := by
  induction ys generalizing n y with
  | nil => simp [symOffsets, wave, channelEdges, EdgeAt.level, edgesFrom, later_add]
  | cons z ys ih =>
    have h := ih z (n + (y.mark + y.space))
    rw [symOffsets]
    simp only [wave, List.map_cons, channelEdges] at h ⊢
    rw [if_neg (by decide), if_pos (by decide), h]
    simp [edgesFrom, later_later, later_add, Nat.add_assoc]

end Sys2Proof.Machine
end

