-- ==== Sys2Proof/Laws/PerInstr.lean ====
section
/-! SUPPORT. Statements about every instruction as syntax, one lemma per constructor. Family `WordForm`: an encoding is a
word of one of the three formats of 30_encoding.md R81, with no bit above the format's last one. -/

namespace Sys2Proof.Laws.WordForm

/-- The bytes are the whole bytes of a word of `nbits` bits. -/
def Holds (nbits : Nat) (bytes : List Byte) : Prop :=
  bytes.length = bytesFor nbits ∧ wordOf bytes < 2 ^ nbits

/-- Whatever encoding the instruction has, it is a word of format N, B or T. -/
def Statement (i : Instr) : Prop :=
  ∀ bytes, encode i = some bytes → Holds bitsN bytes ∨ Holds bitsB bytes ∨ Holds (bitsT tsWidth) bytes

theorem holds_bytesOf {nbits w : Nat} (h : w < 2 ^ nbits) : Holds nbits (bytesOf (bytesFor nbits) w) := by
  refine ⟨length_bytesOf _ _, ?_⟩
  rw [wordOf_bytesOf]
  exact Nat.lt_of_le_of_lt (Nat.mod_le _ _) h

theorem of_none {i : Instr} (h : encode i = none) : Statement i := fun _ hw => by rw [h] at hw; cases hw

theorem of_N {i : Instr} {op : Nat} (h : encode i = some (encodeN op)) (hop : op < 8) : Statement i := fun _ hw => by
  rw [h] at hw; cases hw; exact .inl (holds_bytesOf hop)

theorem beginTx : Statement .beginTx := of_N rfl (by decide)
theorem send (b : Byte) : Statement (.send b) := fun _ hw => by
  cases hw
  exact .inr (.inl (holds_bytesOf (by have := b.isLt; simp only [bitsB]; omega)))
theorem beginRx : Statement .beginRx := of_N rfl (by decide)
theorem edge (t : Timestamp) : Statement (.edge t) := fun _ hw => by
  cases hw
  exact .inr (.inr (holds_bytesOf (by have := t.isLt; simp only [bitsT, tsWidth] at *; omega)))
theorem edgeNewFrame (t : Timestamp) : Statement (.edgeNewFrame t) := of_none rfl
theorem edgeHeader (t : Timestamp) : Statement (.edgeHeader t) := of_none rfl
theorem edgeData (t : Timestamp) : Statement (.edgeData t) := of_none rfl
theorem push (v : Byte) : Statement (.push v) := of_none rfl
theorem avail : Statement .avail := of_N rfl (by decide)
theorem read : Statement .read := of_N rfl (by decide)
theorem reserved110 : Statement .reserved110 := of_N rfl (by decide)
theorem reserved111 : Statement .reserved111 := of_N rfl (by decide)
theorem frame (b : Byte) : Statement (.frame b) := of_none rfl
theorem symH : Statement .symH := of_none rfl
theorem sym0 : Statement .sym0 := of_none rfl
theorem sym1 : Statement .sym1 := of_none rfl
theorem symS : Statement .symS := of_none rfl
theorem txAccept (b : Byte) : Statement (.txAccept b) := of_none rfl
theorem txWait : Statement .txWait := of_none rfl
theorem txSeg : Statement .txSeg := of_none rfl
theorem txDone : Statement .txDone := of_none rfl

end Sys2Proof.Laws.WordForm
end

