-- ==== Sys2Proof/Laws/Runs.lean ====
section
/-! SUPPORT. Runs of operations: one operation first, two runs joined, and what taking an edge and reading leave
unchanged. -/

namespace Sys2Proof.Machine

theorem execAll_cons {i : Instr} {is : List Instr} {s t : State} (h : exec i s = .next t) :
    execAll (i :: is) s = execAll is t := by
  simp [execAll, h]

/-- A run that answers a next state has run its first operation, and then the rest. -/
theorem execAll_cons_next {i : Instr} {is : List Instr} {s t : State} (h : execAll (i :: is) s = .next t) :
    ∃ u, exec i s = .next u ∧ execAll is u = .next t := by
  simp only [execAll] at h
  cases he : exec i s with
  | next u => rw [he] at h; exact ⟨u, rfl, h⟩
  | fault f => rw [he] at h; cases h
  | refused r => rw [he] at h; cases h

theorem execAll_append {is js : List Instr} {s t : State} (h : execAll is s = .next t) :
    execAll (is ++ js) s = execAll js t := by
  induction is generalizing s with
  | nil => cases h; rfl
  | cons i is ih =>
    obtain ⟨u, hu, ht⟩ := execAll_cons_next h
    rw [List.cons_append, execAll_cons hu, ih ht]

/-- A data edge leaves everything but the accumulator, the queue and the timestamp. -/
theorem dataEdge_frame {W : Nat} (s : State W) (e : Timestamp W) :
    s.dataEdge e = { s with
      bitCount := (s.dataEdge e).bitCount, shiftRegister := (s.dataEdge e).shiftRegister
      buf := (s.dataEdge e).buf, count := (s.dataEdge e).count, previousEdgeTimestamp := e } := by
  by_cases h : s.bitCount = 6
  · rw [dataEdge_complete h]; rfl
  · rw [dataEdge_shift h]; rfl

/-- READ leaves everything but the count. -/
theorem dropOldest_frame {W : Nat} (s : State W) : s.dropOldest = { s with count := s.dropOldest.count } := by
  unfold State.dropOldest
  split <;> rfl

/-- Slots 0 to `n` after a PUSH, oldest first, are slots 0 to `n - 1` before it, and then the value. -/
theorem oldestFirst_pushByte {W : Nat} (s : State W) (v : Byte) (n : Nat) (hn : n + 1 ≤ Config.qSlots) (hc : n ≤ s.count.val) :
    (s.pushByte v).buf.oldestFirst (n + 1) hn = s.buf.oldestFirst n (Nat.le_of_succ_le hn) ++ [v] := by
  induction n with
  | zero => simp only [Memory.oldestFirst]; rw [pushByte_read]; rfl
  | succ n ih =>
    rw [Memory.oldestFirst, ih (Nat.le_of_succ_le hn) (Nat.le_of_succ_le hc), Memory.oldestFirst, List.cons_append]
    congr 1
    rw [pushByte_read]
    simp
    omega

end Sys2Proof.Machine
end

