-- ==== Sys2Proof/Tests/Slice0.lean ====
section
/-! SUPPORT. The model's own tests. Expected values come from the spec: the encodings of 30_encoding.md R81 written out
bit by bit, the vectors of 95_test_vectors.md (named V-... and P...), or hand calculation from the rule named. The second
half shows, for each statement with hypotheses, a concrete state and operands that meet them (`witness_...`). -/

namespace Sys2Proof.Tests

open Sys2Proof.Machine

/-! ## Small states -/

/-- The transmitter begun, with the clock and the recorded frame end given. -/
def tx (last now : Timestamp) : State :=
  { State.reset with txEnabled := true, lastFrameEndTimestamp := last, txNow := now }

/-- The receiver begun, with the decoder's four elements given. -/
def rx (prev : Timestamp) (seen : Bool) (bits : Fin 8) (sr : Byte) : State :=
  { State.reset with
    rxEnabled := true, previousEdgeTimestamp := prev, headerSeen := seen, bitCount := bits, shiftRegister := sr }

/-- A queue with the given slots and count. -/
def queue (m : Memory) (n : Fin 8) : State := { State.reset with buf := m, count := n }

/-- The state after, or the reset state when there is none. -/
def after (o : Host.Outcome State Fault Refusal) : State :=
  match o with
  | .next s => s
  | .fault _ => State.reset
  | .refused _ => State.reset

/-- Why it was refused, if it was. -/
def refusal (o : Host.Outcome State Fault Refusal) : Option Refusal :=
  match o with
  | .next _ => none
  | .fault _ => none
  | .refused r => some r

/-- The decoder's elements and the count, as the tables of 95_test_vectors.md show them. -/
def decoder (s : State) : Bool × Fin 8 × Byte × Fin 8 × Timestamp :=
  (s.headerSeen, s.bitCount, s.shiftRegister, s.count, s.previousEdgeTimestamp)

/-! ## Well-formedness: each check refuses an ill-formed term -/

theorem test_wf_code_110 : (.reserved110 : Instr).wellFormed = false := by decide
theorem test_wf_code_111 : (.reserved111 : Instr).wellFormed = false := by decide
theorem test_wf_push_128 : (.push 128 : Instr).wellFormed = false := by decide
theorem test_wf_push_127 : (.push 127 : Instr).wellFormed = true := by decide
theorem test_wf_send_255 : (.send 0xFF : Instr).wellFormed = true := by decide

/-! ## Decoding: `op`, then the operand (R81) -/

theorem test_decode_beginTx : decodeTableWord 3 0b000 = some .beginTx := by decide
theorem test_decode_send : decodeTableWord 11 0b001_10101100 = some (.send 0xAC) := by decide
theorem test_decode_beginRx : decodeTableWord 3 0b010 = some .beginRx := by decide
theorem test_decode_edge :
    decodeTableWord 35 0b011_10000001_00000010_00000011_00000101 = some (.edge 0x81020305) := by decide
theorem test_decode_avail : decodeTableWord 3 0b100 = some .avail := by decide
theorem test_decode_read : decodeTableWord 3 0b101 = some .read := by decide
theorem test_decode_reserved110 : decodeTableWord 3 0b110 = some .reserved110 := by decide
theorem test_decode_reserved111 : decodeTableWord 3 0b111 = some .reserved111 := by decide

/-! The rows with no operation code: nothing encodes them (R81). -/

theorem test_no_code :
    [(.edgeNewFrame 1 : Instr), .edgeHeader 1, .edgeData 1, .push 1, .frame 1, .symH, .sym0, .sym1, .symS, .txAccept 1,
      .txWait, .txSeg, .txDone].all (fun i => encode i = none) = true := by decide

/-! What the decoder rejects, by name. -/

/-- The decoder at the default width. -/
def decodeAt32 (bytes : List Byte) : Except DecodeError Instr := decode bytes

theorem test_reject_empty : decodeAt32 [] = .error .badLength := by rfl
theorem test_reject_length : decodeAt32 [0, 1, 0] = .error .badLength := by rfl
theorem test_reject_pad : decodeAt32 [0b1000] = .error .padBits := by rfl
theorem test_reject_send_as_N : decodeAt32 [0b001] = .error .wrongFormat := by rfl
theorem test_reject_read_as_B : decodeAt32 [0, 0b101] = .error .wrongFormat := by rfl
theorem test_reject_step : refusal (step { State.reset with inputs := [.op []] }) =
    some (.undecodable .badLength) := by decide

/-! Another width (R8, D1): a format T word of 3 + 16 bits, in three bytes, and of 3 + 64, in nine. -/

theorem test_decode_edge_16 :
    decode (bytesOf 3 0b011_10000001_00000010) = .ok (.edge 0x8102 : Instr 16) := by rfl
theorem test_encode_edge_64 :
    encode (.edge 0x8000000000000001 : Instr 64) = some [1, 0, 0, 0, 0, 0, 0, 0x80, 0b011] := by rfl

/-! ## The constants (R5, R6, R7) -/

theorem test_profile : [Config.hdrMark, Config.hdrSpace, Config.bitMark, Config.zeroSpace, Config.oneSpace,
    Config.stopMark, Config.stopSpace, Config.minFrameInterval, Config.newFrameGap, Config.bitThreshold,
    Config.endPullback] = [9000, 4500, 562, 562, 1687, 562, 1000, 16000, 15000, 1500, 1000] := by decide
theorem test_structure : [Config.txBits, Config.rxBits, Config.qSlots, Config.qMax, Config.segs] = [8, 7, 8, 7, 20] := by
  decide
/-- R71's closed form, the twenty durations of `0xAC` in V-TX-1. -/
theorem test_durations : (List.finRange Config.segs).map (fun k => dur k 0xAC) =
    [9000, 4500, 562, 1687, 562, 562, 562, 1687, 562, 562, 562, 1687, 562, 1687, 562, 562, 562, 562, 562, 1000] := by
  decide
/-- V-TX-3. -/
theorem test_frame_durations : [0x00, 0x01, 0x80, 0xAC, 0xFF].map (fun b => frameDuration b) =
    [24054, 25179, 25179, 28554, 33054] := by decide

/-! ## The transmitter -/

/-- V-TX-5. -/
theorem test_beginTx : (after (exec .beginTx State.reset)).txEnabled = true := by decide
/-- V-TX-5. -/
theorem test_send_refused : refusal (exec (.send 0) State.reset) = some .sendBeforeBeginTx := by decide
/-- V-TX-1: the end, and the first and last changes of the carrier. -/
theorem test_send : let s := after (exec (.send 0xAC) (tx 0 20000))
    s.txNow = 48554 ∧ s.lastFrameEndTimestamp = 47554 ∧
    (s.observed.take 4 = [.carrier 20000 .on, .carrier 29000 .off, .carrier 33500 .on, .carrier 34062 .off]) ∧
    (s.observed.drop 18 = [.carrier 46992 .on, .carrier 47554 .off, .sendReturned 48554]) := by decide +kernel
/-- V-TX-4, the wait across the wrap of the clock. -/
theorem test_send_wrap : let s := after (exec (.send 0x01) (tx 4294966796 4294967196))
    s.txNow = 40679 ∧ s.lastFrameEndTimestamp = 39679 := by decide +kernel
theorem test_txAccept : let s := after (exec (.txAccept 0x5A) (tx 0 20000))
    s.txByte = 0x5A ∧ s.txPhase = .wait := by decide
/-- R103 at a difference of exactly 16000, and one below. -/
theorem test_txWait : let s := after (exec .txWait { tx 47554 63554 with txPhase := .wait })
    s.txPhase = .emit ∧ s.segEnd = 72554 ∧ s.carrier = .on := by decide
theorem test_txWait_early : (after (exec .txWait { tx 47554 63553 with txPhase := .wait })).txPhase = .wait := by decide
/-- V-TX-1, from segment 2 to the space of bit 7, which is a 1. -/
theorem test_txSeg : let s := after (exec .txSeg
      { tx 0 34062 with txPhase := .emit, carrier := .on, seg := 2, txByte := 0xAC, segEnd := 34062 })
    s.seg = 3 ∧ s.carrier = .off ∧ s.segEnd = 35749 := by decide
/-- V-TX-1, the end. -/
theorem test_txDone : let s := after (exec .txDone
      { tx 0 48554 with txPhase := .emit, seg := 19, txByte := 0xAC, segEnd := 48554 })
    s.lastFrameEndTimestamp = 47554 ∧ s.txPhase = .idle := by decide
theorem test_txDone_early : refusal (exec .txDone { tx 0 0 with txPhase := .emit, seg := 18 }) =
    some .stepNotEnabled := by decide

/-! ## The wire (R72, R74) -/

theorem test_symH : let s := after (exec .symH (tx 0 100))
    s.txNow = 13600 ∧ s.observed = [.carrier 100 .on, .carrier 9100 .off] := by decide
theorem test_sym0 : (after (exec .sym0 (tx 0 100))).txNow = 1224 := by decide
theorem test_sym1 : let s := after (exec .sym1 (tx 0 100))
    s.txNow = 2349 ∧ s.observed = [.carrier 100 .on, .carrier 662 .off] := by decide
theorem test_symS : (after (exec .symS (tx 0 100))).txNow = 1662 := by decide
theorem test_frame : let s := after (exec (.frame 0xAC) (tx 0 20000))
    s.txNow = 48554 ∧ s.observed.length = 20 := by decide +kernel

/-! ## The decoder (V-DEC-5) -/

theorem test_beginRx : (after (exec .beginRx State.reset)).rxEnabled = true := by decide
theorem test_edge_new_frame : decoder (after (exec (.edge 16001) (rx 1000 true 2 0x01))) =
    (false, 2, 0x01, 0, 16001) := by decide
theorem test_edge_not_new_frame : decoder (after (exec (.edge 16000) (rx 1000 true 2 0x01))) =
    (true, 3, 0x03, 0, 16000) := by decide
theorem test_edgeNewFrame : decoder (after (exec (.edgeNewFrame 16001) (rx 1000 false 4 0x0A))) =
    (false, 4, 0x0A, 0, 16001) := by decide
theorem test_edgeHeader : decoder (after (exec (.edgeHeader 16000) (rx 1000 false 2 0x01))) =
    (true, 0, 0x00, 0, 16000) := by decide
theorem test_edgeHeader_equal_times : decoder (after (exec (.edgeHeader 1000) (rx 1000 false 5 0x09))) =
    (true, 0, 0x00, 0, 1000) := by decide
theorem test_edgeData_1500 : decoder (after (exec (.edgeData 2500) (rx 1000 true 2 0x01))) =
    (true, 3, 0x02, 0, 2500) := by decide
theorem test_edgeData_complete : let s := after (exec (.edgeData 1301) (rx 4294967096 true 6 0x3F))
    decoder s = (true, 0, 0x00, 1, 1301) ∧ s.buf = [(0, 0x7F)] := by decide

/-- V-DEC-5's row across the wrap, on a 16-bit clock: 1124 after 64660 it reads 248. -/
theorem test_edgeData_wrap_16 : let s : State 16 :=
      { State.resetAt 16 with rxEnabled := true, previousEdgeTimestamp := 64660, headerSeen := true }
    match execAt (.edge 248) s with
    | .next t => t.bitCount = 1 ∧ t.shiftRegister = 0 ∧ t.previousEdgeTimestamp = 248
    | .fault _ => False
    | .refused _ => False := ⟨rfl, rfl, rfl⟩

/-! ## The queue -/

/-- V-Q-2: the stale slot is overwritten. -/
theorem test_push : let s := after (exec (.push 0x44) (queue [(0, 0x33), (1, 0x22), (2, 0x11)] 2))
    s.buf = [(0, 0x44), (1, 0x33), (2, 0x22)] ∧ s.count = 3 := by decide
/-- V-Q-3, the eighth push. -/
theorem test_push_full : let s := after (exec (.push 0x47)
      (queue [(0, 0x3E), (1, 0x35), (2, 0x2C), (3, 0x23), (4, 0x1A), (5, 0x11), (6, 0x08)] 7))
    s.buf = [(0, 0x47), (1, 0x3E), (2, 0x35), (3, 0x2C), (4, 0x23), (5, 0x1A), (6, 0x11), (7, 0x08)] ∧
    s.count = 7 := by decide
theorem test_avail : (after (exec .avail (queue [] 5))).observed = [.available 5] := by decide
/-- R142's example. -/
theorem test_read : let s := after (exec .read (queue [(0, 0x33), (1, 0x22), (2, 0x11)] 3))
    s.observed = [.readByte 0x11] ∧ s.count = 2 ∧ s.buf = [(0, 0x33), (1, 0x22), (2, 0x11)] := by decide
/-- V-Q-1. -/
theorem test_read_empty : let s := after (exec .read (queue [(0, 0x33)] 0))
    s.observed = [.readByte 0] ∧ s.count = 0 := by decide
theorem test_reserved110 : refusal (exec .reserved110 State.reset) = some .reservedCode := by decide
theorem test_reserved111 : refusal (exec .reserved111 State.reset) = some .reservedCode := by decide

/-! ## The step -/

theorem test_reset_store_wf : State.reset.buf.wf := by decide
/-- A fetched READ is the next step. -/
theorem test_fetch : (after (step (State.reset.withFetchWord 3 0b101))).observed = [.readByte 0] := by decide
/-- Nothing presented, nothing changes (R191). -/
theorem test_idle : after (step (tx 5 6)) = tx 5 6 := by decide
/-- V-TX-4, third row: time runs to the start of the frame and no further. -/
theorem test_elapse : let s := after (step
      { tx 47554 63553 with txPhase := .wait, inputs := [.elapse 10] })
    s.txNow = 63554 ∧ s.carrier = .on ∧ s.inputs = [.elapse 9] := by decide

/-! ## The statements' hypotheses are met

One theorem per statement that has hypotheses, at boundary values. -/

/-- The least width, and the default. -/
theorem witness_DecodeEncodeAgree :
    16 ≤ 16 ∧ (decode (bytesOf 3 0b011_11111111_11111111) = .ok (.edge 0xFFFF : Instr 16)) ∧
    16 ≤ 32 ∧ (decode [0b101] = .ok (.read : Instr 32)) := ⟨by decide, rfl, by decide, rfl⟩

/-- The least width, where a wait of 16000 and the longest frame still fit. -/
theorem witness_TimeIsModularAtEveryWidth :
    16 ≤ 16 ∧ (let s := { State.resetAt 16 with txNow := 65535 }; (s.sendStart - s.txNow).toNat = 0) ∧
    (let s := { State.resetAt 16 with txNow := 100, lastFrameEndTimestamp := 100 }
     (s.sendStart - s.txNow).toNat = 16000) := by decide

theorem witness_StepRunsDecodedInstruction :
    ({ State.reset with inputs := [.op [0b101]] } : State).inputs = .op [0b101] :: [] ∧
    decode [0b101] = .ok (.read : Instr) ∧ decodeTableWord 3 0b101 = some .read := ⟨rfl, rfl, rfl⟩

/-- The five clauses, each with the step due exactly at the end of the time, and one microsecond later. -/
theorem witness_SequencerActsExactlyOnTime :
    (let s := { tx 0 0 with inputs := [.elapse 5] }; s.inputs = .elapse 5 :: [] ∧ s.txPhase = .idle) ∧
    (let s := { tx 0 0 with inputs := [.elapse 16000], txPhase := .wait }
     s.inputs = .elapse 16000 :: [] ∧ s.txPhase = .wait ∧
      16000 - (s.txNow - s.lastFrameEndTimestamp).toNat = 16000) ∧
    (let s := { tx 0 0 with inputs := [.elapse 7], txPhase := .emit, seg := 18, segEnd := 7 }
     s.inputs = .elapse 7 :: [] ∧ s.txPhase = .emit ∧ s.seg.val < 19 ∧ (s.segEnd - s.txNow).toNat = 7) ∧
    (let s := { tx 0 0 with inputs := [.elapse 7], txPhase := .emit, seg := 19, segEnd := 7 }
     s.inputs = .elapse 7 :: [] ∧ s.txPhase = .emit ∧ s.seg.val = 19 ∧ (s.segEnd - s.txNow).toNat = 7) ∧
    (let s := { tx 0 0 with inputs := [.elapse 15999], txPhase := .wait }
     s.inputs = .elapse 15999 :: [] ∧ (s.txPhase = .wait → 15999 < 16000 - (s.txNow - s.lastFrameEndTimestamp).toNat) ∧
      (s.txPhase = .emit → 15999 < (s.segEnd - s.txNow).toNat)) := by decide

theorem witness_TieTakesEitherOrder :
    ({ State.reset with inputs := [.tie [0b101] 45868] } : State).inputs = .tie [0b101] 45868 :: [] := rfl

/-- P5, and the largest gap that is no new frame; also for `TornReadLeavesTheDecoderDefined` and
`SeventhBitCompletesTheByte`. -/
theorem witness_TiedReadSeesByteOrSentinel :
    (let s := rx 44744 true 6 0x2B
     s.rxEnabled = true ∧ s.count = 0 ∧ s.headerSeen = true ∧ s.bitCount = 6 ∧
      ((45868 : Timestamp) - s.previousEdgeTimestamp).toNat ≤ 15000) ∧
    (let s := rx 44744 true 6 0x2B
     s.rxEnabled = true ∧ s.count = 0 ∧ s.headerSeen = true ∧ s.bitCount = 6 ∧
      ((59744 : Timestamp) - s.previousEdgeTimestamp).toNat = 15000) := by decide

theorem witness_TornReadLeavesTheDecoderDefined :
    let s := rx 44744 true 6 0x2B
    s.rxEnabled = true ∧ s.headerSeen = true ∧ s.bitCount = 6 ∧
      ((59744 : Timestamp) - s.previousEdgeTimestamp).toNat ≤ 15000 := by decide

theorem witness_BeginTxSwitchesTheCarrierOff :
    State.reset.txPhase = .idle ∧ ∃ t, exec .beginTx State.reset = .next t := ⟨rfl, _, rfl⟩

theorem witness_SendNeedsABegunIdleTransmitter :
    State.reset.txEnabled = false ∧
    ({ tx 0 0 with txPhase := .wait } : State).txEnabled = true ∧
    ({ tx 0 0 with txPhase := .wait } : State).txPhase ≠ .idle ∧
    ({ tx 0 0 with txPhase := .emit } : State).txPhase ≠ .idle := by decide

/-- A wait of 15000, and no wait; also for `SequencerRunEqualsSend`. -/
theorem witness_SendEmitsOneFrame :
    (let s := tx 47554 48554
     s.txEnabled = true ∧ s.txPhase = .idle ∧ s.carrier = .off ∧
      (63554 : Timestamp) = s.txNow + BitVec.ofNat 32 (16000 - (s.txNow - s.lastFrameEndTimestamp).toNat) ∧
      (87608 : Timestamp) = 63554 + BitVec.ofNat 32 (24054 + 1125 * popcount 0x00)) ∧
    (let s := tx 0 20000
     s.txEnabled = true ∧ s.txPhase = .idle ∧ s.carrier = .off ∧
      (20000 : Timestamp) = s.txNow + BitVec.ofNat 32 (16000 - (s.txNow - s.lastFrameEndTimestamp).toNat) ∧
      (48554 : Timestamp) = 20000 + BitVec.ofNat 32 (24054 + 1125 * popcount 0xAC)) := by decide

theorem witness_SendStartsAtTheFirstMoment :
    (tx 47554 47554).lastFrameEndTimestamp.toNat ≤ (tx 47554 47554).txNow.toNat ∧
    (tx 47554 47554).lastFrameEndTimestamp.toNat + 16000 < 2 ^ 32 := by decide

theorem witness_AcceptLatchesTheByte : (tx 0 0).txEnabled = true ∧ (tx 0 0).txPhase = .idle := by decide

/-- At a difference of 16000 and of 15999. -/
theorem witness_WaitEndsAtSixteenThousand :
    (let s := { tx 0 16000 with txPhase := .wait }
     s.txPhase = .wait ∧ s.carrier = .off ∧ 16000 ≤ (s.txNow - s.lastFrameEndTimestamp).toNat) ∧
    (let s := { tx 0 15999 with txPhase := .wait }
     s.txPhase = .wait ∧ s.carrier = .off ∧ ¬ 16000 ≤ (s.txNow - s.lastFrameEndTimestamp).toNat) := by decide

/-- To segment 1 and to segment 19. -/
theorem witness_SegmentsFollowOneAnother :
    (let s := { tx 0 9000 with txPhase := .emit, carrier := .on, segEnd := 9000 }
     s.txPhase = .emit ∧ s.txNow = s.segEnd ∧ (1 : SegIx).val = s.seg.val + 1 ∧ s.carrierOk) ∧
    (let s := { tx 0 9000 with txPhase := .emit, carrier := .on, seg := 18, segEnd := 9000 }
     s.txPhase = .emit ∧ s.txNow = s.segEnd ∧ (19 : SegIx).val = s.seg.val + 1 ∧ s.carrierOk) := by decide

theorem witness_FrameEndIsPulledBack :
    let s := { tx 0 500 with txPhase := .emit, seg := 19, segEnd := 500 }
    s.txPhase = .emit ∧ s.seg = 19 ∧ s.txNow = s.segEnd := by decide

theorem witness_SequencerRunEqualsSend :
    let s := tx 47554 48554
    s.txEnabled = true ∧ s.txPhase = .idle ∧
      41304 = 16000 - (s.txNow - s.lastFrameEndTimestamp).toNat + (24054 + 1125 * popcount 0x03) := by decide

/-- Also for `BackToBackSendWaitsFifteenThousand`, whose inner clause has `d = 15000`. -/
theorem witness_SendBlocksForABoundedTime :
    (∃ t, exec (.send 0xFF) (tx 0 0) = .next t) ∧ 15000 ≤ 15000 ∧ 15000 + 1000 < 2 ^ 32 :=
  ⟨⟨_, rfl⟩, by decide⟩

theorem witness_BackToBackSendWaitsFifteenThousand :
    (∃ t, exec (.send 0x00) (tx 0 0) = .next t) ∧ 15000 ≤ 4294966295 ∧ 4294966295 + 1000 < 2 ^ 32 :=
  ⟨⟨_, rfl⟩, by decide⟩

theorem witness_HeaderMarksKeepTheirDistance :
    ∃ t u : State, exec (.send 0x00) (tx 0 20000) = .next t ∧
      (43054 : Timestamp) = (tx 0 20000).sendStart + BitVec.ofNat 32 (24054 + 1125 * popcount 0x00 - 1000) ∧
      u.lastFrameEndTimestamp = t.lastFrameEndTimestamp := ⟨_, _, rfl, by decide, rfl⟩

/-- Also for `SymbolsHaveTheirDurations`. -/
theorem witness_FrameIsTwentySegments :
    (tx 0 0).txEnabled = true ∧ (tx 0 0).txPhase = .idle ∧ (tx 0 0).carrier = .off := by decide

theorem witness_SymbolsHaveTheirDurations :
    (tx 0 4294967295).txEnabled = true ∧ (tx 0 4294967295).txPhase = .idle ∧ (tx 0 4294967295).carrier = .off := by
  decide

/-- The three classes at their boundaries: gaps of 15001, 15000 and 15000. -/
theorem witness_EdgeRunsExactlyOneArm :
    (let s := rx 1000 true 2 1; s.rxEnabled = true ∧ 15000 < ((16001 : Timestamp) - s.previousEdgeTimestamp).toNat) ∧
    (let s := rx 1000 false 2 1; s.rxEnabled = true ∧ s.headerSeen = false ∧
      ¬ 15000 < ((16000 : Timestamp) - s.previousEdgeTimestamp).toNat) ∧
    (let s := rx 1000 true 2 1; s.rxEnabled = true ∧ s.headerSeen ≠ false ∧
      ¬ 15000 < ((16000 : Timestamp) - s.previousEdgeTimestamp).toNat) := by decide

theorem witness_EdgeBeforeBeginRxIsNotDelivered : State.reset.rxEnabled = false := rfl

theorem witness_NewFrameLeavesTheAccumulator :
    (rx 1000 true 2 1).rxEnabled = true ∧
    15000 < ((16001 : Timestamp) - (rx 1000 true 2 1).previousEdgeTimestamp).toNat := by decide

theorem witness_HeaderBoundaryClearsTheAccumulator :
    let s := rx 1000 false 2 1
    s.rxEnabled = true ∧ ((16000 : Timestamp) - s.previousEdgeTimestamp).toNat ≤ 15000 ∧ s.headerSeen = false := by
  decide

/-- From 5 to 6 bits, with a gap of 1501, and of 1500. -/
theorem witness_DataEdgeShiftsOneBit :
    let s := rx 1000 true 5 1
    s.rxEnabled = true ∧ ((2501 : Timestamp) - s.previousEdgeTimestamp).toNat ≤ 15000 ∧ s.headerSeen = true ∧
      (6 : Fin 8).val = s.bitCount.val + 1 ∧ (6 : Fin 8).val ≤ 6 ∧
      1500 < ((2501 : Timestamp) - s.previousEdgeTimestamp).toNat ∧
      ¬ 1500 < ((2500 : Timestamp) - s.previousEdgeTimestamp).toNat := by decide

theorem witness_SeventhBitCompletesTheByte :
    let s := rx 1000 true 6 0x3F
    s.rxEnabled = true ∧ ((16000 : Timestamp) - s.previousEdgeTimestamp).toNat ≤ 15000 ∧ s.headerSeen = true ∧
      s.bitCount = 6 ∧ s.accumulatorOk ∧ (0x7F : Byte) = BitVec.ofNat 8 (2 * s.shiftRegister.toNat +
        gapBit ((16000 : Timestamp) - s.previousEdgeTimestamp).toNat) := by decide

theorem witness_SevenGapsMakeAByte :
    let s := rx 33500 true 0 0
    s.rxEnabled = true ∧ s.headerSeen = true ∧ s.bitCount = 0 ∧ s.shiftRegister = 0 ∧
      ∀ g ∈ [2249, 1124, 15000, 0, 1500, 1501, 1124], g ≤ 15000 := by decide

theorem witness_StaleBitsNeverReachTheQueue :
    (rx 0 true 4 0x0A).rxEnabled = true ∧
    15000 < ((15001 : Timestamp) - (rx 0 true 4 0x0A).previousEdgeTimestamp).toNat ∧
    ∃ u, execAll [.edge 15001, .edge 28501, .read] (rx 0 true 4 0x0A) = .next u := ⟨rfl, by decide, _, rfl⟩

/-- The last slot the shift of a full queue writes, and a slot no PUSH of an empty queue writes. -/
theorem witness_PushInsertsAtTheFront :
    ((7 : Slot).val = (6 : Slot).val + 1 ∧ (6 : Slot).val < (queue [] 7).count.val) ∧
    (queue [] 0).count.val < (1 : Slot).val := by decide

theorem witness_ReadReturnsTheOldest :
    (queue [] 0).count = 0 ∧ (queue [] 1).count.val = (0 : Slot).val + 1 ∧
    (queue [] 7).count.val = (6 : Slot).val + 1 := by decide

/-- Seven values; also for `QueueKeepsTheLastSeven` and `EmptyReadsReturnTheSentinel`. -/
theorem witness_PushedBytesReadBackInOrder :
    State.reset.count = 0 ∧ ([1, 2, 3, 4, 5, 6, 7] : List Byte).length ≤ 7 := by decide

theorem witness_QueueKeepsTheLastSeven : 7 ≤ ([1, 2, 3, 4, 5, 6, 7] : List Byte).length := by decide

theorem witness_EmptyReadsReturnTheSentinel : State.reset.count = 0 := rfl

theorem witness_AvailPromisesThatManyReads :
    (∃ t, exec .read (queue [] 1) = .next t ∧ t.count.val < (queue [] 1).count.val) ∧
    ((∃ t, execAll [.read, .push 5, .read] (queue [] 3) = .next t) ∧
      [(.read : Instr), .push 5, .read].count .read < (queue [] 3).count.val) :=
  ⟨⟨_, rfl, by decide⟩, ⟨_, rfl⟩, by decide⟩

theorem head_is {l : List Timestamp} {a : Timestamp} {P : Timestamp → Prop} (h : l.head? = some a) (hp : P a) :
    ∀ e, l.head? = some e → P e := fun e he => by rw [h] at he; cases he; exact hp

/-- Also for `FrameMakesTenEdges`; the first edge 15001 after the receiver's last. -/
theorem witness_FrameArrivesHalved :
    ∃ t, (tx 0 20000).txPhase = .idle ∧ (tx 0 20000).carrier = .off ∧ exec (.send 0xAC) (tx 0 20000) = .next t ∧
      (rx 4999 true 3 5).rxEnabled = true ∧
      ∀ e, (channelEdges .markStart 0 ((tx 0 20000).observedSince t)).head? = some e →
        15000 < (e - (rx 4999 true 3 5).previousEdgeTimestamp).toNat :=
  ⟨_, rfl, rfl, rfl, rfl, head_is (a := 20000) (by decide +kernel) (by decide)⟩

theorem witness_FrameMakesTenEdges :
    ∃ t e f : _, (tx 0 20000).txPhase = .idle ∧ (tx 0 20000).carrier = .off ∧
      exec (.send 0xAC) (tx 0 20000) = .next t ∧ e = (tx 0 20000).sendStart + 7 ∧
      f = (tx 0 20000).sendStart + 9000 + 7 := ⟨_, _, _, rfl, rfl, rfl, rfl, rfl⟩

/-- The first edge exactly 15000 after the receiver's last (and V-DEC-6 has 1000). -/
theorem witness_EarlyFirstEdgeShiftsTheFrame :
    ∃ t, (tx 0 20000).txPhase = .idle ∧ (tx 0 20000).carrier = .off ∧ exec (.send 0xAC) (tx 0 20000) = .next t ∧
      (rx 5000 false 0 0).rxEnabled = true ∧ (rx 5000 false 0 0).headerSeen = false ∧
      ∀ e, (channelEdges .markStart 0 ((tx 0 20000).observedSince t)).head? = some e →
        (e - (rx 5000 false 0 0).previousEdgeTimestamp).toNat ≤ 15000 :=
  ⟨_, rfl, rfl, rfl, rfl, rfl, head_is (a := 20000) (by decide +kernel) (by decide)⟩

theorem witness_MidFrameStartQueuesLowBits :
    ∃ t e₀ edges, (tx 0 20000).txPhase = .idle ∧ (tx 0 20000).carrier = .off ∧
      exec (.send 0xAC) (tx 0 20000) = .next t ∧
      e₀ :: edges = channelEdges .markEnd 0 ((tx 0 20000).observedSince t) ∧
      (rx 0 false 0 0).rxEnabled = true ∧
      ∀ e, edges.head? = some e → 15000 < (e - (rx 0 false 0 0).previousEdgeTimestamp).toNat :=
  ⟨_, _, _, rfl, rfl, rfl, rfl, rfl, head_is (a := 34062) (by decide +kernel) (by decide)⟩

/-- P3. -/
theorem witness_LinkDeliversHalvedBytesInOrder :
    ∃ t, (tx 0 100000).txPhase = .idle ∧ (tx 0 100000).carrier = .off ∧
      execAll (([0x00, 0xFF] : List Byte).map .send) (tx 0 100000) = .next t ∧
      (rx 0 false 0 0).rxEnabled = true ∧
      ∀ e, (channelEdges .markStart 0 ((tx 0 100000).observedSince t)).head? = some e →
        15000 < (e - (rx 0 false 0 0).previousEdgeTimestamp).toNat :=
  ⟨_, rfl, rfl, rfl, rfl, head_is (a := 100000) (by decide +kernel) (by decide)⟩

/-- Every element is changed by some operation its rule names; the segment in progress, its byte and its end too. -/
theorem witness_ElementsChangeOnlyUnderTheirWriters :
    (let t := after (exec (.send 1) (tx 0 20000))
     t.lastFrameEndTimestamp ≠ 0 ∧ t.txNow ≠ 20000 ∧ t.seg ≠ 0 ∧ t.segEnd ≠ 0 ∧ t.txByte ≠ 0 ∧ t.observed ≠ []) ∧
    (let t := after (exec .txWait { tx 0 16000 with txPhase := .wait })
     t.carrier ≠ .off ∧ t.txPhase ≠ .wait) ∧
    (after (exec .beginTx State.reset)).txEnabled ≠ false ∧ (after (exec .beginRx State.reset)).rxEnabled ≠ false ∧
    (let t := after (exec (.edge 5) (rx 0 false 0 0)); t.previousEdgeTimestamp ≠ 0 ∧ t.headerSeen ≠ false) ∧
    (let t := after (exec (.edge 5000) (rx 0 true 0 0)); t.bitCount ≠ 0 ∧ t.shiftRegister ≠ 0) ∧
    (let t := after (exec (.push 5) State.reset); t.buf ≠ [] ∧ t.count ≠ 0) := by decide +kernel

theorem witness_TxEnabledIsSetOnceAndForAll :
    (∃ t, exec .beginTx State.reset = .next t) ∧
    (∃ t, (tx 0 0).txEnabled = true ∧ step (tx 0 0) = .next t) ∧ State.reset.txEnabled = false :=
  ⟨⟨_, rfl⟩, ⟨_, rfl, rfl⟩, rfl⟩

theorem witness_RxEnabledIsSetOnceAndForAll :
    (∃ t, exec .beginRx State.reset = .next t) ∧
    (∃ t, (rx 0 false 0 0).rxEnabled = true ∧ step (rx 0 false 0 0) = .next t) ∧ State.reset.rxEnabled = false :=
  ⟨⟨_, rfl⟩, ⟨_, rfl, rfl⟩, rfl⟩

theorem witness_DevicesShareNoState :
    (∃ t, exec (.send 1) (tx 0 0) = .next t ∧ (.send 1 : Instr).onTx = true) ∧
    (∃ t, exec (.edge 1) (rx 0 true 6 1) = .next t ∧ (.edge 1 : Instr).onRx = true) := ⟨⟨_, rfl, rfl⟩, ⟨_, rfl, rfl⟩⟩

/-- In mid-frame, where the sequencer acts. -/
theorem witness_StepKeepsTheInvariant :
    let s := { tx 0 0 with txPhase := .emit, carrier := .on, segEnd := 9000, inputs := [.elapse 9000] }
    s.Inv ∧ ∃ t, step s = .next t :=
  ⟨⟨by decide, by decide, fun _ => rfl, by decide⟩, _, rfl⟩

/-- On a 16-bit clock without exclusion: a READ torn by a pushing edge, and a segment that ends across the wrap. -/
theorem witness_InvariantHoldsForEveryParameter :
    (let s := { State.resetAt 16 with
        rxEnabled := true, headerSeen := true, bitCount := 6, shiftRegister := 0x3F, inputs := [.tie [0b101] 1124] }
     s.edgePushes 1124 = true ∧ s.Inv ∧ ∃ t, stepAt false s = .next t) ∧
    (let s := { State.resetAt 16 with
        txEnabled := true, txPhase := .emit, carrier := .on, txNow := 65000, segEnd := 8464, inputs := [.elapse 9000] }
     s.Inv ∧ ∃ t, stepAt true s = .next t) :=
  ⟨⟨by decide, ⟨by decide, by decide, fun h => absurd rfl h, by decide⟩, _, rfl⟩,
    ⟨by decide, by decide, fun _ => rfl, by decide⟩, _, rfl⟩

theorem witness_EqualReadsMeanEqualStores :
    Memory.wf [(0, 5), (7, 255)] ∧ ∀ i : Slot, Memory.read [(0, 5), (7, 255)] i = Memory.read [(0, 5), (7, 255)] i :=
  ⟨by decide, fun _ => rfl⟩

end Sys2Proof.Tests
end

/-! Proofs of the scope's statements (00_scope.md): the width of timestamps is a parameter of the machine. -/

namespace Sys2Proof.Machine

variable {W : Nat}

/-! Times passed, in the statements' own form: a difference of clock values, as a number. -/

theorem toNat_later_sub (t : Timestamp W) (d : Nat) : (later t d - t).toNat = d % 2 ^ W := by
  simp [later]

theorem toNat_sub_earlier (t : Timestamp W) (d : Nat) : (t - earlier t d).toNat = d % 2 ^ W := by
  simp [earlier]

/-! The duration of a frame (R74). -/

theorem sum_marks_and_spaces (ys : List Sym) : (ys.flatMap (fun y => [y.mark, y.space])).sum = symTotal ys := by
  induction ys with
  | nil => rfl
  | cons y ys ih => simp [symTotal] at ih ⊢; omega

theorem frameDuration_eq (b : Byte) : frameDuration b = 24054 + 1125 * popcount b := by
  rw [frameDuration, durs_eq_marks_and_spaces, sum_marks_and_spaces, symTotal_frameSyms]

theorem popcount_le (b : Byte) : popcount b ≤ 8 := List.length_filter_le _ _

/-- The longest frame, of eight 1 bits. -/
theorem frameDuration_le (b : Byte) : frameDuration b ≤ 33054 := by
  have := popcount_le b
  rw [frameDuration_eq]
  omega

/-! The start of a SEND (R103). -/

theorem sendStart_spacing_met (s : State W) (hW : Config.minTsWidth ≤ W := by decide) :
    16000 ≤ (s.sendStart - s.lastFrameEndTimestamp).toNat :=
  spacing_met_after s.lastFrameEndTimestamp s.txNow hW

/-- At every width, also below 16 bits: a time modulo 2^W is at most the time itself. -/
theorem sendStart_wait_le (s : State W) : (s.sendStart - s.txNow).toNat ≤ 16000 := by
  rw [State.sendStart, toNat_later_sub]
  exact (Nat.mod_le _ _).trans (Nat.sub_le _ _)

end Sys2Proof.Machine

section
open Sys2Proof Sys2Proof.Machine

/-- Settles O57: arm by arm `execAt` calls the meaning `exec` calls, and `step` is `stepWith` over it. -/
theorem defaultWidthIsTheMachine : Obligations.DefaultWidthIsTheMachine :=
  ⟨execAt_default, stepAt_default, rfl⟩

/-- Settles O58: differences of clock values by modular arithmetic; and the longest frame, 33054, and every constant
are below 2^16. -/
theorem timeIsModularAtEveryWidth : Obligations.TimeIsModularAtEveryWidth := by
  intro W
  refine ⟨toNat_later_sub, toNat_sub_earlier, fun hW => ⟨fun b => ?frame, fun n hn => ?constant, fun s => ?wait⟩⟩
  case frame => exact lt_two_pow hW ((frameDuration_le b).trans_lt (by decide))
  case constant =>
    have fits : ∀ n ∈ [9000, 4500, 562, 1687, 1000, 16000, 15000, 1500], n < 2 ^ 16 := by decide
    exact lt_two_pow hW (fits n hn)
  case wait => exact ⟨sendStart_spacing_met s hW, sendStart_wait_le s⟩

end

/-! Proofs of the state's statements (10_state.md): the two devices share no state, every operation keeps the invariant,
every element has its writers. -/

namespace Sys2Proof.Machine

variable {W : Nat}

/-! When an operation answers a next state: exactly when it has its effect. -/

theorem execAt_next_iff {i : Instr W} {s t : State W} : execAt i s = .next t ↔ Effect i s t := by
  refine ⟨execAt_next_cases, fun h => ?_⟩
  cases i with
  | beginTx => exact execBeginTx_next.mpr h
  | send _ | frame _ | symH | sym0 | sym1 | symS | txAccept _ => exact onReadyTx_next.mpr h
  | edgeNewFrame _ | edgeHeader _ | edgeData _ => exact onArm_next.mpr h
  | beginRx | edge _ | push _ | avail | read => rw [h]; rfl
  | reserved110 | reserved111 => exact h.elim
  | txWait => exact execTxWait_next.mpr h
  | txSeg => exact execTxSeg_next.mpr h
  | txDone => exact execTxDone_next.mpr h

theorem onReadyTx_unbegun {s : State W} (h : s.txEnabled = false) (s' : State W) :
    onReadyTx s s' = .refused .sendBeforeBeginTx := if_pos h

theorem onReadyTx_busy {s : State W} (he : s.txEnabled = true) (hp : s.txPhase ≠ .idle) (s' : State W) :
    onReadyTx s s' = .refused .txBusy := by
  simp [onReadyTx, he, busy_eq_true.mpr hp]

theorem execBeginTx_busy {s : State W} (h : s.txPhase ≠ .idle) : execBeginTx s = .refused .txBusy :=
  if_pos (busy_eq_true.mpr h)

/-! The two devices (R20): the transmitter's operations commute with replacing the receiver's state. -/

theorem withRx_self (s : State W) : s.withRx s = s := rfl

theorem emitSym_withRx (s r : State W) (y : Sym) : (s.withRx r).emitSym y = (s.emitSym y).withRx r := rfl

theorem emitFrame_withRx (s r : State W) (b : Byte) : (s.withRx r).emitFrame b = (s.emitFrame b).withRx r := by
  unfold State.emitFrame
  exact List.foldl_hom (State.withRx · r) fun s y => emitSym_withRx s r y

theorem sent_withRx (s r : State W) (b : Byte) : (s.withRx r).sent b = (s.sent b).withRx r := by
  simp only [sent_eq_any]
  rfl

theorem execAt_withRx {i : Instr W} {s t : State W} (hi : i.onTx = true) (h : execAt i s = .next t) (r : State W) :
    execAt i (s.withRx r) = .next (t.withRx r) := by
  rw [execAt_next_iff] at h ⊢
  cases i with
  | beginTx => obtain ⟨hp, rfl⟩ := h; exact ⟨hp, rfl⟩
  | send b => obtain ⟨he, hp, rfl⟩ := h; exact ⟨he, hp, (sent_withRx s r b).symm⟩
  | frame b => obtain ⟨he, hp, rfl⟩ := h; exact ⟨he, hp, (emitFrame_withRx s r b).symm⟩
  | symH | sym0 | sym1 | symS => obtain ⟨he, hp, rfl⟩ := h; exact ⟨he, hp, (emitSym_withRx s r _).symm⟩
  | txAccept b => obtain ⟨he, hp, rfl⟩ := h; exact ⟨he, hp, rfl⟩
  | txWait =>
    obtain ⟨hp, rfl⟩ := h
    exact ⟨hp, apply_ite (State.withRx · r) _ _ _⟩
  | txSeg => obtain ⟨ho, rfl⟩ := h; exact ⟨ho, rfl⟩
  | txDone => obtain ⟨ho, rfl⟩ := h; exact ⟨ho, rfl⟩
  | beginRx | edge _ | edgeNewFrame _ | edgeHeader _ | edgeData _ | push _ | avail | read | reserved110
  | reserved111 => exact absurd hi Bool.false_ne_true

/-- An operation of the transmitter leaves the receiver's state alone: it commutes with writing that state back. -/
theorem execAt_keeps_rx {i : Instr W} {s t : State W} (hi : i.onTx = true) (h : execAt i s = .next t) :
    t.withRx s = t := by
  have hs := execAt_withRx hi h s
  rw [withRx_self, h] at hs
  exact (Host.Outcome.next.inj hs).symm

/-! The receiver's operations commute with replacing the transmitter's state. -/

theorem withTx_self (s : State W) : s.withTx s = s := rfl

theorem dataEdge_withTx (s r : State W) (e : Timestamp W) : (s.withTx r).dataEdge e = (s.dataEdge e).withTx r := by
  by_cases h : s.bitCount = 6
  · rw [dataEdge_complete h, dataEdge_complete (s := s.withTx r) h]; rfl
  · rw [dataEdge_shift h, dataEdge_shift (s := s.withTx r) h]; rfl

theorem takeEdge_withTx (s r : State W) (e : Timestamp W) : (s.withTx r).takeEdge e = (s.takeEdge e).withTx r := by
  rcases takeEdge_cases s e with ⟨h, ht⟩ | ⟨h, hc, ht⟩ | ⟨h, hc, ht⟩ | ⟨h, hc, ht⟩ <;> rw [ht]
  · exact takeEdge_disabled (s := s.withTx r) h e
  · exact takeEdge_newFrame (s := s.withTx r) h hc
  · exact takeEdge_header (s := s.withTx r) h hc
  · exact (takeEdge_data (s := s.withTx r) h hc).trans (dataEdge_withTx s r e)

theorem dropOldest_withTx (s r : State W) : (s.withTx r).dropOldest = s.dropOldest.withTx r := by
  unfold State.dropOldest
  rw [apply_ite (State.withTx · r)]
  rfl

theorem execAt_withTx {i : Instr W} {s t : State W} (hi : i.onRx = true) (h : execAt i s = .next t) (r : State W) :
    execAt i (s.withTx r) = .next (t.withTx r) := by
  rw [execAt_next_iff] at h ⊢
  cases i with
  | beginRx | push _ | avail => subst h; rfl
  | edge e => subst h; exact (takeEdge_withTx s r e).symm
  | edgeNewFrame e | edgeHeader e => obtain ⟨he, hc, rfl⟩ := h; exact ⟨he, hc, rfl⟩
  | edgeData e => obtain ⟨he, hc, rfl⟩ := h; exact ⟨he, hc, (dataEdge_withTx s r e).symm⟩
  | read => subst h; exact congrArg (State.observe · (.readByte s.oldest)) (dropOldest_withTx s r).symm
  | beginTx | send _ | frame _ | symH | sym0 | sym1 | symS | txAccept _ | txWait | txSeg | txDone | reserved110
  | reserved111 => exact absurd hi Bool.false_ne_true

/-- An operation of the receiver leaves the transmitter's state, and its clock, alone. -/
theorem execAt_keeps_tx {i : Instr W} {s t : State W} (hi : i.onRx = true) (h : execAt i s = .next t) :
    t.withTx s = t := by
  have hs := execAt_withTx hi h s
  rw [withTx_self, h] at hs
  exact (Host.Outcome.next.inj hs).symm

/-! The invariant, the transmitter's part (R24, R36 (d), (e)). -/

theorem carrierOk_iff_off {s : State W} (h : s.txPhase ≠ .emit) : s.carrierOk ↔ s.carrier = .off := iff_of_eq (if_neg h)

theorem carrierOk_emit_iff {s : State W} (h : s.txPhase = .emit) :
    s.carrierOk ↔ (s.carrier = .on ↔ s.seg.val % 2 = 0) := iff_of_eq (if_pos h)

theorem level_eq_on {k : SegIx} : level k = .on ↔ k.val % 2 = 0 := by simp [level]

theorem startSegment_carrierOk (s : State W) (k : SegIx) : (s.startSegment k).carrierOk :=
  (carrierOk_emit_iff rfl).mpr level_eq_on

namespace State.Inv

variable {s t : State W}

theorem carrier_off_of_idle (h : s.Inv) (hp : s.txPhase = .idle) : s.carrier = .off :=
  (carrierOk_iff_off (by simp [hp])).mp h.carrier

/-- In the last segment, a space, the carrier is off. -/
theorem carrier_off_of_frameOver (h : s.Inv) (ho : s.frameOver = true) : s.carrier = .off := by
  obtain ⟨hp, hs, -⟩ := (frameOver_iff s).mp ho
  have hon := (carrierOk_emit_iff hp).mp h.carrier
  cases hc : s.carrier with
  | off => rfl
  | on => exact absurd (hon.mp hc) (by rw [hs]; decide)

/-- Where the receiver's state is as it was, its part of the invariant is kept. -/
theorem of_keeps_rx (h : s.Inv) (hrx : t.withRx s = t) (hc : t.carrierOk) (hb : t.begunOk) : t.Inv :=
  hrx ▸ (⟨h.accumulator, hc, hb, h.store⟩ : (t.withRx s).Inv)

/-- Where the transmitter's state is as it was, its part of the invariant is kept. -/
theorem of_keeps_tx (h : s.Inv) (htx : t.withTx s = t) (ha : t.accumulatorOk) (hw : t.buf.wf) : t.Inv :=
  htx ▸ (⟨ha, h.carrier, h.begun, hw⟩ : (t.withTx s).Inv)

theorem of_tx_idle (h : s.Inv) (hrx : t.withRx s = t) (hp : t.txPhase = .idle) (hc : t.carrier = .off) : t.Inv :=
  h.of_keeps_rx hrx ((carrierOk_iff_off (by simp [hp])).mpr hc) (fun hn => absurd hp hn)

theorem startSegment (h : s.Inv) (hp : s.txPhase ≠ .idle) (k : SegIx) : (s.startSegment k).Inv :=
  h.of_keeps_rx rfl (startSegment_carrierOk s k) (fun _ => h.begun hp)

end State.Inv

/-! The invariant, the receiver's part (R36 (b), (c)). -/

theorem dataEdge_accumulatorOk {s : State W} (h : s.accumulatorOk) (e : Timestamp W) : (s.dataEdge e).accumulatorOk := by
  obtain ⟨hn, hr⟩ := h
  by_cases h6 : s.bitCount = 6
  · rw [dataEdge_complete h6]; exact ⟨Nat.zero_le _, Nat.one_pos⟩
  · rw [dataEdge_shift h6]
    have hlt : s.bitCount.val < 6 := lt_of_le_of_ne hn (fun hv => h6 (Fin.ext hv))
    have hval : (s.bitCount + 1).val = s.bitCount.val + 1 := Fin.val_add_one_of_lt' (by omega)
    have hbit := (dataBit (s.gap e)).toNat_lt
    simp only [State.accumulatorOk, State.accumulate_bitCount, State.accumulate_shiftRegister, hval, toNat_shiftIn,
      pow_succ]
    exact ⟨hlt, (Nat.mod_le _ _).trans_lt (by omega)⟩

theorem dataEdge_wf {s : State W} (h : s.buf.wf) (e : Timestamp W) : (s.dataEdge e).buf.wf := by
  by_cases h6 : s.bitCount = 6
  · rw [dataEdge_complete h6]; exact pushByte_wf h _
  · rw [dataEdge_shift h6]; exact h

theorem takeEdge_accumulatorOk {s : State W} (h : s.accumulatorOk) (e : Timestamp W) : (s.takeEdge e).accumulatorOk := by
  rcases takeEdge_cases s e with ⟨-, ht⟩ | ⟨-, -, ht⟩ | ⟨-, -, ht⟩ | ⟨-, -, ht⟩ <;> rw [ht]
  · exact h
  · exact h
  · exact ⟨Nat.zero_le _, Nat.one_pos⟩
  · exact dataEdge_accumulatorOk h e

theorem takeEdge_wf {s : State W} (h : s.buf.wf) (e : Timestamp W) : (s.takeEdge e).buf.wf := by
  rcases takeEdge_cases s e with ⟨-, ht⟩ | ⟨-, -, ht⟩ | ⟨-, -, ht⟩ | ⟨-, -, ht⟩ <;> rw [ht]
  · exact h
  · exact h
  · exact h
  · exact dataEdge_wf h e

/-! The invariant: at reset, under every operation and under a torn READ. -/

theorem resetAt_inv (W : Nat) : (State.resetAt W).Inv where
  accumulator := ⟨Nat.zero_le _, Nat.one_pos⟩
  carrier := (carrierOk_iff_off TxPhase.noConfusion).mpr rfl
  begun := fun h => absurd rfl h
  store := Memory.wf_nil

theorem execAt_keeps_inv {i : Instr W} {s t : State W} (h : s.Inv) (ht : execAt i s = .next t) : t.Inv := by
  have he := execAt_next_cases ht
  cases i with
  | beginTx => obtain ⟨hp, rfl⟩ := he; exact h.of_tx_idle rfl hp rfl
  | send b =>
    have hrx := execAt_keeps_rx rfl ht
    obtain ⟨-, -, rfl⟩ := he
    rw [sent_eq_any] at hrx ⊢
    exact h.of_tx_idle hrx rfl rfl
  | frame b =>
    have hrx := execAt_keeps_rx rfl ht
    obtain ⟨-, hp, rfl⟩ := he
    rw [emitFrame_eq_any] at hrx ⊢
    exact h.of_tx_idle hrx hp rfl
  | symH | sym0 | sym1 | symS => obtain ⟨-, hp, rfl⟩ := he; exact h.of_tx_idle rfl hp rfl
  | txAccept b =>
    obtain ⟨hb, hp, rfl⟩ := he
    exact h.of_keeps_rx rfl ((carrierOk_iff_off (by simp)).mpr (h.carrier_off_of_idle hp)) (fun _ => hb)
  | txWait =>
    obtain ⟨hp, rfl⟩ := he
    split
    · exact h.startSegment (by simp [hp]) 0
    · exact h
  | txSeg =>
    obtain ⟨ho, rfl⟩ := he
    obtain ⟨hp, -, -⟩ := (segmentOver_iff s).mp ho
    exact h.startSegment (by simp [hp]) _
  | txDone => obtain ⟨ho, rfl⟩ := he; exact h.of_tx_idle rfl rfl (h.carrier_off_of_frameOver ho)
  | beginRx | avail => subst he; exact h.of_keeps_tx rfl h.accumulator h.store
  | edge e =>
    have htx := execAt_keeps_tx rfl ht
    subst he
    exact h.of_keeps_tx htx (takeEdge_accumulatorOk h.accumulator e) (takeEdge_wf h.store e)
  | edgeNewFrame e => obtain ⟨-, -, rfl⟩ := he; exact h.of_keeps_tx rfl h.accumulator h.store
  | edgeHeader e => obtain ⟨-, -, rfl⟩ := he; exact h.of_keeps_tx rfl ⟨Nat.zero_le _, Nat.one_pos⟩ h.store
  | edgeData e =>
    have htx := execAt_keeps_tx rfl ht
    obtain ⟨-, -, rfl⟩ := he
    exact h.of_keeps_tx htx (dataEdge_accumulatorOk h.accumulator e) (dataEdge_wf h.store e)
  | push v => subst he; exact h.of_keeps_tx rfl h.accumulator (pushByte_wf h.store v)
  | read =>
    subst he
    rw [dropOldest_frame]
    exact h.of_keeps_tx rfl h.accumulator h.store
  | reserved110 | reserved111 => exact he.elim

/-- Whatever a torn READ leaves in the count and the slots (R197), the invariant is kept: the decoder takes the edge. -/
theorem tornRead_keeps_inv {s : State W} (h : s.Inv) (e : Timestamp W) : (s.tornRead e).Inv := by
  have hedge : (s.takeEdge e).Inv := execAt_keeps_inv (i := .edge e) h rfl
  exact ⟨hedge.accumulator, hedge.carrier, hedge.begun, Memory.wf_ofSlots _⟩

/-! The step: what every operation keeps, and no change of the model's own fields breaks, every step keeps. -/

section
variable {P : State W → Prop} (hop : ∀ {i s t}, P s → execAt i s = .next t → P t)
  (hown : ∀ {s : State W} now inputs draws, P s → P { s with txNow := now, inputs := inputs, draws := draws })
include hop hown

theorem stepAt_keeps {atomic : Bool} (htorn : ∀ {s : State W} e, atomic = false → P s → P (s.tornRead e))
    {s t : State W} (hs : P s) (h : stepAt atomic s = .next t) : P t := by
  rcases stepWith_next_cases h with ⟨-, rfl⟩ | ⟨w, rest, i, -, -, ht⟩ | ⟨w, e, rest, -, rfl⟩ | ⟨b, rest, -, ht⟩ |
    ⟨d, rest, k, i, -, -, ht⟩ | ⟨d, rest, -, -, rfl⟩
  · exact hs
  · exact hop (hown s.txNow rest s.draws hs) ht
  · unfold State.arbitrate
    split
    · next hc => exact hown (s.tornRead e).txNow rest (s.tornRead e).draws (htorn e hc.1 hs)
    · exact hown s.txNow _ _ hs
  · exact hop (hown s.txNow rest s.draws hs) ht
  · exact hop (hown (later s.txNow k) (.elapse (d - k) :: rest) s.draws hs) ht
  · exact hown (s := s) (later s.txNow d) rest s.draws hs

end

theorem step_keeps {P : State → Prop} (hop : ∀ {i s t}, P s → exec i s = .next t → P t)
    (hown : ∀ {s : State} now inputs draws, P s → P { s with txNow := now, inputs := inputs, draws := draws })
    {s t : State} (hs : P s) (h : step s = .next t) : P t :=
  stepAt_keeps (atomic := Config.hostAtomic) (fun hs ht => hop hs ((execAt_default _ _).symm.trans ht)) hown
    nofun hs ((stepAt_default s).trans h)

theorem stepAt_keeps_inv {atomic : Bool} {s t : State W} (hs : s.Inv) (h : stepAt atomic s = .next t) : t.Inv :=
  stepAt_keeps execAt_keeps_inv (fun _ _ _ h => ⟨h.accumulator, h.carrier, h.begun, h.store⟩)
    (fun e _ h => tornRead_keeps_inv h e) hs h

/-! Who writes what: an edge writes the receiver's elements, `rxEnabled` excepted. -/

theorem takeEdge_frame (s : State W) (e : Timestamp W) :
    s.takeEdge e = { s with
      headerSeen := (s.takeEdge e).headerSeen, bitCount := (s.takeEdge e).bitCount
      shiftRegister := (s.takeEdge e).shiftRegister, buf := (s.takeEdge e).buf, count := (s.takeEdge e).count
      previousEdgeTimestamp := (s.takeEdge e).previousEdgeTimestamp } := by
  rcases takeEdge_cases s e with ⟨-, ht⟩ | ⟨-, -, ht⟩ | ⟨-, -, ht⟩ | ⟨-, -, ht⟩ <;> rw [ht]
  · rfl
  · rfl
  · rw [dataEdge_frame]

end Sys2Proof.Machine

section
open Sys2Proof Sys2Proof.Machine

/-- Settles O59: the invariant's parts are kept operation by operation, and a torn READ leaves the decoder as the edge
alone does, and slots in canonical form. -/
theorem invariantHoldsForEveryParameter : Obligations.InvariantHoldsForEveryParameter :=
  fun W _ => ⟨resetAt_inv W, fun _ _ => stepAt_keeps_inv⟩

/-- Settles O55: the machine's step is the step at the default width, with exclusion. -/
theorem stepKeepsTheInvariant : Obligations.StepKeepsTheInvariant :=
  fun s _ hs h => stepAt_keeps_inv hs ((stepAt_default s).trans h)

/-- Settles O54. -/
theorem resetSatisfiesTheInvariant : Obligations.ResetSatisfiesTheInvariant := resetAt_inv tsWidth

/-- Settles O53: an operation of one device commutes with replacing the other's state. -/
theorem devicesShareNoState : Obligations.DevicesShareNoState := by
  intro i s r t h
  simp only [← execAt_default] at h ⊢
  exact ⟨fun hi => ⟨execAt_keeps_rx hi h, execAt_withRx hi h r⟩, fun hi => ⟨execAt_keeps_tx hi h, execAt_withTx hi h r⟩⟩

/-- Settles O50: by the effect of each operation. -/
theorem elementsChangeOnlyUnderTheirWriters : Obligations.ElementsChangeOnlyUnderTheirWriters := by
  intro i s t h
  have he := exec_next_cases h
  cases i with
  | beginTx => obtain ⟨-, rfl⟩ := he; simp
  | send b => obtain ⟨-, -, rfl⟩ := he; simp [sent_eq_any]
  | frame b => obtain ⟨-, -, rfl⟩ := he; simp [emitFrame_eq_any]
  | symH | sym0 | sym1 | symS => obtain ⟨-, -, rfl⟩ := he; simp [emitSym_eq_any]
  | txAccept b => obtain ⟨-, -, rfl⟩ := he; simp
  | txWait => obtain ⟨-, rfl⟩ := he; split <;> simp
  | txSeg =>
    obtain ⟨ho, rfl⟩ := he
    obtain ⟨hp, -, -⟩ := (segmentOver_iff s).mp ho
    simp [hp]
  | txDone => obtain ⟨-, rfl⟩ := he; simp
  | beginRx | push _ | avail => subst he; simp
  | edge e => subst he; rw [takeEdge_frame]; simp
  | edgeNewFrame e | edgeHeader e => obtain ⟨-, -, rfl⟩ := he; simp
  | edgeData e => obtain ⟨-, -, rfl⟩ := he; rw [dataEdge_frame]; simp
  | read => subst he; rw [dropOldest_frame]; simp
  | reserved110 | reserved111 => exact he.elim

/-- Settles O28: EDGE takes the edge, and before BEGIN_RX taking it is leaving the state as it is. -/
theorem edgeBeforeBeginRxIsNotDelivered : Obligations.EdgeBeforeBeginRxIsNotDelivered :=
  fun e _ h => congrArg Host.Outcome.next (takeEdge_disabled h e)

end

namespace Sys2Proof.Machine

/-! The two enabling flags (R24, R31), from who writes what. -/

theorem beginTx_sets_txEnabled {s t : State} (h : exec .beginTx s = .next t) : t.txEnabled = true := by
  obtain ⟨-, rfl⟩ := exec_next_cases h
  rfl

theorem exec_keeps_txEnabled {i : Instr} {s t : State} (hs : s.txEnabled = true) (h : exec i s = .next t) :
    t.txEnabled = true := by
  by_contra hne
  obtain ⟨-, -, -, -, -, -, hw, -⟩ := elementsChangeOnlyUnderTheirWriters i s t h
  obtain rfl := hw (fun he => hne (he.trans hs))
  exact hne (beginTx_sets_txEnabled h)

theorem beginRx_sets_rxEnabled {s t : State} (h : exec .beginRx s = .next t) : t.rxEnabled = true := by
  obtain rfl := exec_next_cases h
  rfl

theorem exec_keeps_rxEnabled {i : Instr} {s t : State} (hs : s.rxEnabled = true) (h : exec i s = .next t) :
    t.rxEnabled = true := by
  by_contra hne
  obtain ⟨-, -, -, -, -, -, -, hw, -⟩ := elementsChangeOnlyUnderTheirWriters i s t h
  obtain rfl := hw (fun he => hne (he.trans hs))
  exact hne (beginRx_sets_rxEnabled h)

end Sys2Proof.Machine

section
open Sys2Proof Sys2Proof.Machine

/-- Settles O51: BEGIN_TX alone writes `txEnabled`, and writes true. -/
theorem txEnabledIsSetOnceAndForAll : Obligations.TxEnabledIsSetOnceAndForAll :=
  ⟨rfl, fun _ _ => beginTx_sets_txEnabled, fun _ _ => step_keeps exec_keeps_txEnabled (fun _ _ _ h => h),
    fun _ _ h => onReadyTx_unbegun h _⟩

/-- Settles O52: BEGIN_RX alone writes `rxEnabled`, and writes true. -/
theorem rxEnabledIsSetOnceAndForAll : Obligations.RxEnabledIsSetOnceAndForAll :=
  ⟨rfl, fun _ _ => beginRx_sets_rxEnabled, fun _ _ => step_keeps exec_keeps_rxEnabled (fun _ _ _ h => h),
    edgeBeforeBeginRxIsNotDelivered, fun _ => ⟨⟨_, rfl⟩, _, rfl⟩⟩

/-- Settles O1. -/
theorem resetIsIdleAndEmpty : Obligations.ResetIsIdleAndEmpty :=
  ⟨rfl, rfl, rfl, rfl, rfl, rfl, rfl, rfl, rfl, rfl, rfl, Memory.read_nil, rfl, rfl⟩

/-- Settles O11: the guard of SEND, and that of BEGIN_TX. -/
theorem sendNeedsABegunIdleTransmitter : Obligations.SendNeedsABegunIdleTransmitter :=
  fun _ _ => ⟨fun h => onReadyTx_unbegun h _, fun he hp => onReadyTx_busy he hp _, execBeginTx_busy⟩

end

/-! Proofs of the memory's statements (20_memory.md): a step runs the operation presented, a store in canonical form is
determined by its reads, and only READ lowers the count. -/

namespace Sys2Proof.Machine.Memory

/-! A store in canonical form lists exactly what its reads say. -/

theorem mem_of_read_ne_zero {m : Memory} {i : Slot} (h : m.read i ≠ 0) : (i.val, m.read i) ∈ m := by
  induction m with
  | nil => exact absurd rfl h
  | cons d m ih =>
    obtain ⟨a, v⟩ := d
    by_cases ha : a = i.val
    · rw [read, if_pos ha, ha]; exact List.mem_cons_self
    · rw [read, if_neg ha] at h ⊢; exact List.mem_cons_of_mem _ (ih h)

theorem read_of_mem {m : Memory} (hm : m.wf) {i : Slot} {v : Byte} (h : (i.val, v) ∈ m) : m.read i = v := by
  induction m with
  | nil => cases h
  | cons d m ih =>
    obtain ⟨a, w⟩ := d
    rcases List.mem_cons.mp h with he | h
    · obtain ⟨rfl, rfl⟩ := Prod.mk.inj he; exact if_pos rfl
    · have ha : a < i.val := (List.pairwise_cons.mp hm.1).1 _ h
      rw [read, if_neg ha.ne]
      exact ih (wf_tail hm) h

theorem mem_iff_read {m : Memory} (hm : m.wf) (c : Host.Cell) :
    c ∈ m ↔ ∃ i : Slot, c = (i.val, m.read i) ∧ m.read i ≠ 0 := by
  constructor
  · intro hc
    obtain ⟨hlt, hne⟩ := hm.2 c hc
    have hr : m.read ⟨c.1, hlt⟩ = c.2 := read_of_mem hm hc
    exact ⟨⟨c.1, hlt⟩, Prod.ext rfl hr.symm, hr.trans_ne hne⟩
  · rintro ⟨i, rfl, hne⟩
    exact mem_of_read_ne_zero hne

/-- Both stores list the same cells, and each lists them in rising order. -/
theorem eq_of_read_eq {m n : Memory} (hm : m.wf) (hn : n.wf) (h : ∀ i, m.read i = n.read i) : m = n := by
  have hirr : Std.Irrefl (fun c d : Host.Cell => c.1 < d.1) := ⟨fun c => Nat.lt_irrefl c.1⟩
  have hasymm : Std.Asymm (fun c d : Host.Cell => c.1 < d.1) := ⟨fun _ _ => Nat.lt_asymm⟩
  refine hm.1.eq_of_mem_iff hn.1 fun c => ?_
  simp only [mem_iff_read hm, mem_iff_read hn, h]

end Sys2Proof.Machine.Memory

namespace Sys2Proof.Machine

variable {W : Nat}

/-! The step with a command word first. -/

theorem stepWith_op {atomic : Bool} {ex : Instr W → State W → Host.Outcome (State W) Fault Refusal} {s : State W}
    {w : List Byte} {rest : List (Input W)} {i : Instr W} (hs : s.inputs = .op w :: rest) (hw : decode w = .ok i) :
    stepWith atomic ex s = ex i { s with inputs := rest } := by
  simp only [stepWith, hs, hw]

theorem decode_of_decodeTableWord {nbits w : Nat} {i : Instr} (h : decodeTableWord nbits w = some i) :
    decode (layOut tsWidth nbits w) = .ok i := by
  unfold decodeTableWord at h
  cases hd : (decode (layOut tsWidth nbits w) : Except DecodeError Instr) with
  | ok j => rw [hd] at h; exact congrArg Except.ok (Option.some.inj h)
  | error e => rw [hd] at h; cases h

/-! The count: no operation but READ lowers it, and READ by one at most (R58 (b)). -/

theorem count_le_pushByte (s : State W) (v : Byte) : s.count.val ≤ (s.pushByte v).count.val := by
  rw [pushByte_count_val]
  omega

theorem count_le_dataEdge (s : State W) (e : Timestamp W) : s.count.val ≤ (s.dataEdge e).count.val := by
  by_cases h : s.bitCount = 6
  · rw [dataEdge_complete h]; exact count_le_pushByte s (shiftIn s.shiftRegister (dataBit (s.gap e)))
  · rw [dataEdge_shift h]; rfl

theorem count_le_takeEdge (s : State W) (e : Timestamp W) : s.count.val ≤ (s.takeEdge e).count.val := by
  rcases takeEdge_cases s e with ⟨-, ht⟩ | ⟨-, -, ht⟩ | ⟨-, -, ht⟩ | ⟨-, -, ht⟩ <;> rw [ht]
  · rfl
  · rfl
  · exact count_le_dataEdge s e

theorem exists_count_eq_succ {s : State W} (h : 0 < s.count.val) : ∃ c : Slot, s.count.val = c.val + 1 :=
  ⟨⟨s.count.val - 1, (Nat.sub_le _ _).trans_lt s.count.isLt⟩, (Nat.sub_add_cancel h).symm⟩

theorem count_le_dropOldest_succ (s : State W) : s.count.val ≤ s.dropOldest.count.val + 1 := by
  rcases s.count.val.eq_zero_or_pos with h | h
  · rw [h]; exact Nat.zero_le _
  · obtain ⟨c, hc⟩ := exists_count_eq_succ h
    rw [dropOldest_nonempty hc]; exact hc.le

theorem exec_count_writers {i : Instr} {s t : State} (h : exec i s = .next t) (hne : t.count ≠ s.count) :
    ∃ e v, i = .edge e ∨ i = .edgeData e ∨ i = .push v ∨ i = .read := by
  obtain ⟨-, -, -, -, -, -, -, -, -, -, -, -, -, hw, -⟩ := elementsChangeOnlyUnderTheirWriters i s t h
  exact hw hne

theorem exec_count_le {i : Instr} {s t : State} (h : exec i s = .next t) (hi : i ≠ .read) :
    s.count.val ≤ t.count.val := by
  by_cases hc : t.count = s.count
  · rw [hc]
  · have he := exec_next_cases h
    obtain ⟨e, v, rfl | rfl | rfl | rfl⟩ := exec_count_writers h hc
    · subst he; exact count_le_takeEdge s e
    · obtain ⟨-, -, rfl⟩ := he; exact count_le_dataEdge s e
    · subst he; exact count_le_pushByte s v
    · exact absurd rfl hi

theorem exec_read_count_le {s t : State} (h : exec .read s = .next t) : s.count.val ≤ t.count.val + 1 := by
  obtain rfl := exec_next_cases h
  exact count_le_dropOldest_succ s

/-- A run lowers the count by no more than the number of its READs. -/
theorem execAll_count_le {is : List Instr} {s t : State} (h : execAll is s = .next t) :
    s.count.val ≤ t.count.val + is.count .read := by
  induction is generalizing s with
  | nil => cases h; rfl
  | cons i is ih =>
    obtain ⟨u, hu, ht⟩ := execAll_cons_next h
    have hrest := ih ht
    by_cases hi : i = .read
    · subst hi
      have hone := exec_read_count_le hu
      rw [List.count_cons_self]
      omega
    · have hone := exec_count_le hu hi
      rw [List.count_cons_of_ne hi]
      omega

/-! READ of a queue that is not empty. -/

theorem unread_eq_cons {s : State W} {c : Slot} (h : s.count.val = c.val + 1) :
    s.unread = s.buf.read c :: ({ s with count := c } : State W).unread := by
  simp only [State.unread, h, Memory.oldestFirst]

theorem exec_read_nonempty {s : State} {c : Slot} (h : s.count.val = c.val + 1) :
    exec .read s = .next ({ s with count := c }.observe (.readByte (s.buf.read c))) := by
  rw [← dropOldest_nonempty h, ← oldest_nonempty h]
  rfl

/-- READ of a queue that is not empty answers its oldest unread byte, and leaves the others unread. -/
theorem exec_read_takes_oldest {s : State} (h : 0 < s.count.val) :
    ∃ v rest u, s.unread = v :: rest ∧ exec .read s = .next u ∧ u.unread = rest ∧
      u.observed = s.observed ++ [.readByte v] := by
  obtain ⟨c, hc⟩ := exists_count_eq_succ h
  exact ⟨_, _, _, unread_eq_cons hc, exec_read_nonempty hc, rfl, rfl⟩

end Sys2Proof.Machine

section
open Sys2Proof Sys2Proof.Machine

/-- Settles O42: an operation but READ keeps the count or raises it, and a READ lowers it by one at most; so after fewer
READs than the count the queue is not empty. -/
theorem availPromisesThatManyReads : Obligations.AvailPromisesThatManyReads := by
  refine ⟨fun i s t h hlt => ?lowers, fun is s t h hlt => ?run⟩
  case lowers =>
    by_contra hi
    exact hlt.not_ge (exec_count_le h hi)
  case run =>
    have hle := execAll_count_le h
    exact exec_read_takes_oldest (by omega)

/-- Settles O56: what a store in canonical form lists, and in which order, follows from its reads. -/
theorem equalReadsMeanEqualStores : Obligations.EqualReadsMeanEqualStores :=
  fun _ _ => Memory.eq_of_read_eq

/-- Settles O5: a table word that decodes is a command word, put first among the inputs. -/
theorem stepRunsDecodedInstruction : Obligations.StepRunsDecodedInstruction :=
  ⟨fun _ _ _ _ hs hw => stepWith_op hs hw,
    fun _ _ _ _ hw => stepWith_op rfl (decode_of_decodeTableWord hw)⟩

end

/-! Proofs of the encoding's statements (30_encoding.md): words and operations, the frame on the wire, seven gaps and a
byte, and the bytes that a link delivers. -/

namespace Sys2Proof

variable {W : Nat}

/-! The decoder takes the format from the number of bytes. -/

theorem decode_of_length_bitsN {w : List Byte} (h : w.length = bytesFor bitsN) :
    (decode w : Except DecodeError (Instr W)) = decodeN (wordOf w) := if_pos h

theorem decode_of_length_bitsB {w : List Byte} (h : w.length = bytesFor bitsB) :
    (decode w : Except DecodeError (Instr W)) = decodeB (wordOf w) :=
  (if_neg (by rw [h]; decide)).trans (if_pos h)

theorem decode_of_length_bitsT {w : List Byte} (hW : Config.minTsWidth ≤ W) (h : w.length = bytesFor (bitsT W)) :
    (decode w : Except DecodeError (Instr W)) = decodeT (wordOf w) := by
  have hlong := bytesFor_bitsT hW
  have hN : bytesFor bitsN = 1 := rfl
  have hB : bytesFor bitsB = 2 := rfl
  exact (if_neg (by omega)).trans ((if_neg (by omega)).trans (if_pos h))

/-! What the decoder reads from an encoding: the format's number is the one encoded. -/

theorem wordOf_bytesOf_bytesFor {nbits v : Nat} (h : v < 2 ^ nbits) : wordOf (bytesOf (bytesFor nbits) v) = v := by
  rw [wordOf_bytesOf, Nat.mod_eq_of_lt (h.trans_le (two_pow_le_bytesFor nbits))]

theorem code_add_operand_lt {n op v : Nat} (hop : op < 8) (hv : v < 2 ^ n) : op * 2 ^ n + v < 2 ^ (3 + n) :=
  calc
    op * 2 ^ n + v < op * 2 ^ n + 2 ^ n := Nat.add_lt_add_left hv _
    _ = (op + 1) * 2 ^ n := (Nat.add_one_mul _ _).symm
    _ ≤ 2 ^ 3 * 2 ^ n := Nat.mul_le_mul_right _ hop
    _ = 2 ^ (3 + n) := (pow_add 2 3 n).symm

theorem decode_encodeN {op : Nat} (hop : op < 8) :
    (decode (encodeN op) : Except DecodeError (Instr W)) = decodeN op := by
  rw [encodeN, decode_of_length_bitsN (length_bytesOf _ _), wordOf_bytesOf_bytesFor hop]

theorem decode_encodeB {op : Nat} (hop : op < 8) (b : Byte) :
    (decode (encodeB op b) : Except DecodeError (Instr W)) = decodeB (op * 2 ^ 8 + b.toNat) := by
  rw [encodeB, decode_of_length_bitsB (length_bytesOf _ _), wordOf_bytesOf_bytesFor (code_add_operand_lt hop b.isLt)]

theorem decode_encodeT {op : Nat} (hW : Config.minTsWidth ≤ W) (hop : op < 8) (t : Timestamp W) :
    decode (encodeT op t) = (decodeT (op * 2 ^ W + t.toNat) : Except DecodeError (Instr W)) := by
  rw [encodeT, decode_of_length_bitsT hW (length_bytesOf _ _), wordOf_bytesOf_bytesFor (code_add_operand_lt hop t.isLt)]

theorem code_add_operand_div {n op v : Nat} (hv : v < 2 ^ n) : (op * 2 ^ n + v) / 2 ^ n = op := by
  rw [Nat.add_comm, Nat.add_mul_div_right _ _ (Nat.two_pow_pos n), Nat.div_eq_of_lt hv, Nat.zero_add]

theorem ofNat_code_add_operand {n op : Nat} (v : BitVec n) : BitVec.ofNat n (op * 2 ^ n + v.toNat) = v := by
  apply BitVec.eq_of_toNat_eq
  rw [BitVec.toNat_ofNat, Nat.mul_add_mod_self_right, Nat.mod_eq_of_lt v.isLt]

theorem decodeB_send (b : Byte) :
    (decodeB (0b001 * 2 ^ 8 + b.toNat) : Except DecodeError (Instr W)) = .ok (.send b) := by
  rw [decodeB, code_add_operand_div b.isLt, ofNat_code_add_operand]
  rfl

theorem decodeT_edge (t : Timestamp W) : decodeT (0b011 * 2 ^ W + t.toNat) = .ok (.edge t) := by
  rw [decodeT, code_add_operand_div t.isLt, ofNat_code_add_operand]
  rfl

/-- An encoding decodes to the instruction encoded. -/
theorem decode_of_encode {i : Instr W} {w : List Byte} (hW : Config.minTsWidth ≤ W) (h : encode i = some w) :
    decode w = .ok i := by
  cases i with
  | beginTx | beginRx | avail | read | reserved110 | reserved111 =>
    cases h
    exact decode_encodeN (by decide)
  | send b => cases h; exact (decode_encodeB (by decide) b).trans (decodeB_send b)
  | edge t => cases h; exact (decode_encodeT hW (by decide) t).trans (decodeT_edge t)
  | edgeNewFrame _ | edgeHeader _ | edgeData _ | push _ | frame _ | symH | sym0 | sym1 | symS | txAccept _ | txWait
  | txSeg | txDone => cases h

/-! What a word that decodes is the encoding of. -/

theorem encode_of_decodeN {i : Instr W} {v : Nat} (h : decodeN v = .ok i) : encode i = some (encodeN v) := by
  unfold decodeN at h
  split at h <;> cases h <;> rfl

theorem code_mul_add_mod {n v op : Nat} (h : v / 2 ^ n = op) : op * 2 ^ n + v % 2 ^ n = v := by
  rw [← h, Nat.div_add_mod']

theorem encode_of_decodeB {i : Instr W} {v : Nat} (h : decodeB v = .ok i) :
    encode i = some (bytesOf (bytesFor bitsB) v) := by
  unfold decodeB at h
  split at h
  · next hop =>
    cases h
    rw [encode, encodeB, BitVec.toNat_ofNat, code_mul_add_mod hop]
  · cases h

theorem encode_of_decodeT {i : Instr W} {v : Nat} (h : decodeT v = .ok i) :
    encode i = some (bytesOf (bytesFor (bitsT W)) v) := by
  unfold decodeT at h
  split at h
  · next hop =>
    cases h
    rw [encode, encodeT, BitVec.toNat_ofNat, code_mul_add_mod hop]
  · cases h

/-- A word that decodes is the encoding of what it decodes to: its bytes are those of the number they hold. -/
theorem encode_of_decode {i : Instr W} {w : List Byte} (h : decode w = .ok i) : encode i = some w := by
  have hw := bytesOf_wordOf w
  unfold decode at h
  split at h
  · next hN => rw [encode_of_decodeN h, encodeN, ← hN, hw]
  · split at h
    · next hB => rw [encode_of_decodeB h, ← hB, hw]
    · split at h
      · next hT => rw [encode_of_decodeT h, ← hT, hw]
      · cases h

/-! Words as the opcode table numbers them. -/

theorem decodeTableWord_eq {nbits v : Nat} {i : Instr} (h : encode i = some (layOut tsWidth nbits v)) :
    decodeTableWord nbits v = some i := by
  rw [decodeTableWord, decode_of_encode (by decide) h]
  rfl

end Sys2Proof

section
open Sys2Proof Sys2Proof.Machine

/-- Settles O4: an encoding has its format's length and number, from which the decoder reads the code and the operand;
and a word that decodes is determined by its length and its number. -/
theorem decodeEncodeAgree : Obligations.DecodeEncodeAgree :=
  fun _ _ _ hW => ⟨encode_of_decode, decode_of_encode hW⟩

/-- Settles O3: the two words are the encodings of SEND and EDGE. -/
theorem formatsCarryEveryOperand : Obligations.FormatsCarryEveryOperand :=
  ⟨fun _ => decodeTableWord_eq rfl, fun _ => decodeTableWord_eq rfl⟩

/-- Settles O2: each word is the encoding of the operation the script gives it. -/
theorem scriptWordsDecode : Obligations.ScriptWordsDecode := by
  and_intros <;> exact decodeTableWord_eq rfl

/-- Settles O49: the two codes decode to the reserved operations, which `exec` refuses. -/
theorem reservedCodesAreRefused : Obligations.ReservedCodesAreRefused := by
  obtain ⟨-, hfetch⟩ := stepRunsDecodedInstruction
  exact fun s => ⟨rfl, rfl, hfetch s 3 0b110 .reserved110 (decodeTableWord_eq rfl),
    hfetch s 3 0b111 .reserved111 (decodeTableWord_eq rfl)⟩

end

namespace Sys2Proof.Machine

variable {W : Nat}

/-! The wire rows: where a SEND could start they run, and elsewhere they are refused, whatever they would leave. -/

theorem onReadyTx_ready {s : State W} (he : s.txEnabled = true) (hp : s.txPhase = .idle) (s' : State W) :
    onReadyTx s s' = .next s' := onReadyTx_next.mpr ⟨he, hp, rfl⟩

theorem onReadyTx_cases (s : State W) :
    (s.txEnabled = true ∧ s.txPhase = .idle) ∨ ∃ r, ∀ s', onReadyTx s s' = .refused r := by
  cases he : s.txEnabled with
  | false => exact .inr ⟨_, onReadyTx_unbegun he⟩
  | true =>
    by_cases hp : s.txPhase = .idle
    · exact .inl ⟨rfl, hp⟩
    · exact .inr ⟨_, onReadyTx_busy he hp⟩

/-- The wire row of a symbol. -/
def symInstr : Sym → Instr
  | .H => .symH
  | .zero => .sym0
  | .one => .sym1
  | .S => .symS

theorem exec_symInstr (y : Sym) (s : State) : exec (symInstr y) s = onReadyTx s (s.emitSym y) := by
  cases y <;> rfl

theorem symInstr_dataSym (b : Byte) (i : Nat) : symInstr (dataSym b i) = if b.getLsbD i then .sym1 else .sym0 :=
  apply_ite symInstr _ _ _

theorem execAll_syms_ready (ys : List Sym) {s : State} (he : s.txEnabled = true) (hp : s.txPhase = .idle) :
    execAll (ys.map symInstr) s = .next (ys.foldl State.emitSym s) := by
  induction ys generalizing s with
  | nil => rfl
  | cons y ys ih =>
    have hy : exec (symInstr y) s = .next (s.emitSym y) := (exec_symInstr y s).trans (onReadyTx_ready he hp _)
    exact (execAll_cons hy).trans (ih he hp)

theorem execAll_refused {i : Instr} {is : List Instr} {s : State} {r : Refusal} (h : exec i s = .refused r) :
    execAll (i :: is) s = .refused r := by
  simp only [execAll, h]

/-- At least one symbol, in every state: run one after the other they are under the one guard. -/
theorem execAll_syms (y : Sym) (ys : List Sym) (s : State) :
    execAll ((y :: ys).map symInstr) s = onReadyTx s ((y :: ys).foldl State.emitSym s) := by
  rcases onReadyTx_cases s with ⟨he, hp⟩ | ⟨r, hr⟩
  · rw [execAll_syms_ready _ he hp, onReadyTx_ready he hp]
  · rw [hr]
    exact execAll_refused ((exec_symInstr y s).trans (hr _))

/-- A symbol where a SEND could start, begun with the carrier off. -/
theorem exec_symInstr_ready {s : State} (he : s.txEnabled = true) (hp : s.txPhase = .idle) (hc : s.carrier = .off)
    (y : Sym) :
    exec (symInstr y) s = .next { s with
      txNow := later s.txNow (y.mark + y.space)
      observed := s.observed ++ [.carrier s.txNow .on, .carrier (later s.txNow y.mark) .off] } := by
  rw [exec_symInstr, onReadyTx_ready he hp, emitSym_eq hc]

end Sys2Proof.Machine

section
open Sys2Proof Sys2Proof.Machine

/-- Settles O23: with the carrier off, the ten symbols give the twenty changes of the closed form. -/
theorem frameIsTwentySegments : Obligations.FrameIsTwentySegments := by
  intro b s he hp hc
  exact (onReadyTx_ready he hp _).trans (congrArg Host.Outcome.next (emitFrame_eq hc b))

/-- Settles O25: the ten symbols are run, or refused, under FRAME's own guard. -/
theorem frameIsTenSymbols : Obligations.FrameIsTenSymbols := by
  intro b s
  have hsyms : (frameSyms b).map symInstr = [.symH] ++
      [7, 6, 5, 4, 3, 2, 1, 0].map (fun i => if b.getLsbD i then Instr.sym1 else Instr.sym0) ++ [.symS] := by
    simp only [← symInstr_dataSym]
    rfl
  rw [← hsyms]
  exact (execAll_syms _ _ s).symm

/-- Settles O22: the twenty durations are the ten symbols' marks and spaces. -/
theorem frameDurationByOnes : Obligations.FrameDurationByOnes := by
  intro b
  have hle := popcount_le b
  have heq := frameDuration_eq b
  omega

/-- Settles O24: each symbol is its mark and then its space, from where the clock stands. -/
theorem symbolsHaveTheirDurations : Obligations.SymbolsHaveTheirDurations := by
  intro s he hp hc
  have hsym := exec_symInstr_ready he hp hc
  exact ⟨hsym .H, hsym .zero, hsym .one, hsym .S⟩

end

namespace Sys2Proof.Machine

variable {W : Nat}

/-! Gaps one after the other. -/

theorem edgesFrom_append (t : Timestamp W) (gs hs : List Nat) :
    edgesFrom t (gs ++ hs) = edgesFrom t gs ++ edgesFrom (later t gs.sum) hs := by
  induction gs generalizing t with
  | nil => simp [edgesFrom]
  | cons g gs ih => simp [edgesFrom, ih, later_later]

/-! Where the edges of a frame fall (R75). -/

/-- How long after the header mark's start the frame's first edge falls. -/
def EdgeAt.firstEdge : EdgeAt → Nat
  | .markStart => 0
  | .markEnd => 9000

/-- The gap that the frame's second edge closes: the header's. -/
def EdgeAt.headerGap : EdgeAt → Nat
  | .markStart => 13500
  | .markEnd => 5062

/-- The gap that a data bit makes, between mark starts as between mark ends. -/
def bitGap (b : Byte) (i : Nat) : Nat := if b.getLsbD i then 2249 else 1124

/-- The nine gaps of a frame, bit 7 first (R75). -/
def frameGaps (ea : EdgeAt) (b : Byte) : List Nat := ea.headerGap :: [7, 6, 5, 4, 3, 2, 1, 0].map (bitGap b)

/-- The ten edges of a frame whose header mark starts at `t`, on the receiver's clock. -/
def frameEdges (ea : EdgeAt) (t : Timestamp W) (b : Byte) : List (Timestamp W) :=
  later t ea.firstEdge :: edgesFrom (later t ea.firstEdge) (frameGaps ea b)

theorem total_dataSym (b : Byte) (i : Nat) : (dataSym b i).mark + (dataSym b i).space = bitGap b i :=
  mark_add_space_dataSym b i

theorem mark_dataSym (b : Byte) (i : Nat) : (dataSym b i).mark = 562 := by
  unfold dataSym
  split <;> rfl

theorem space_dataSym_add (b : Byte) (i : Nat) : (dataSym b i).space + 562 = bitGap b i := by
  rw [← total_dataSym, mark_dataSym, Nat.add_comm]

/-- Between mark starts: each symbol but the last, mark and space. -/
theorem gaps_between_mark_starts (b : Byte) :
    (frameSyms b).dropLast.map (fun y => y.mark + y.space) = frameGaps .markStart b := by
  simp only [frameSyms, List.dropLast, List.map_cons, total_dataSym]
  rfl

/-- Between mark ends: each symbol's space and the next one's mark. -/
theorem gaps_between_mark_ends (b : Byte) :
    ((frameSyms b).zip (frameSyms b).tail).map (fun p => p.1.space + p.2.mark) = frameGaps .markEnd b := by
  have hstop : Sym.S.mark = 562 := rfl
  simp only [frameSyms, List.tail_cons, List.zip_cons_cons, List.map_cons, mark_dataSym, hstop, space_dataSym_add]
  rfl

theorem channelEdges_frameWave (ea : EdgeAt) (t offset : Timestamp W) (b : Byte) :
    channelEdges ea offset (frameWave t b) = frameEdges ea (t + offset) b := by
  rw [frameWave_eq, ← symOffsets_frameSyms, frameEdges]
  cases ea with
  | markStart =>
    rw [← gaps_between_mark_starts]
    exact channelEdges_markStart _ _ t offset 0
  | markEnd =>
    rw [← gaps_between_mark_ends]
    exact channelEdges_markEnd _ _ t offset 0

/-- How long after its first edge a frame's last edge falls. -/
theorem sum_frameGaps (ea : EdgeAt) (b : Byte) : (frameGaps ea b).sum = ea.headerGap + 8992 + 1125 * popcount b := by
  have htotal := symTotal_frameSyms b
  have hheader : Sym.H.mark + Sym.H.space = 13500 := rfl
  have hstop : Sym.S.mark + Sym.S.space = 1562 := rfl
  simp only [symTotal, frameSyms, List.map_cons, List.map_nil, List.sum_cons, List.sum_nil, total_dataSym, hheader,
    hstop] at htotal
  simp only [frameGaps, List.map_cons, List.map_nil, List.sum_cons, List.sum_nil]
  omega

/-! What a SEND leaves: the transmitter idle, the carrier off, and the frame observed. -/

theorem sent_carrier (s : State W) (b : Byte) : (s.sent b).carrier = .off := by rw [sent_eq_any]

theorem sent_txPhase (s : State W) (b : Byte) : (s.sent b).txPhase = .idle := rfl

theorem sent_observed {s : State W} (h : s.carrier = .off) (b : Byte) :
    (s.sent b).observed = s.observed ++ (frameWave s.sendStart b ++ [.sendReturned (s.sent b).txNow]) := by
  rw [sent_eq h, List.append_assoc]

theorem sent_txNow (s : State W) (b : Byte) : (s.sent b).txNow = later s.sendStart (24054 + 1125 * popcount b) := by
  rw [sent_eq_any]

/-- Called at the return, the next SEND waits 15000 (R109). -/
theorem sent_sendStart (s : State W) (b : Byte) (hW : Config.minTsWidth ≤ W := by decide) :
    (s.sent b).sendStart = later s.sendStart (24054 + 1125 * popcount b + 15000) := by
  have hend : (s.sent b).lastFrameEndTimestamp = earlier (s.sent b).txNow 1000 := rfl
  have hwait : spacingLeft (earlier (s.sent b).txNow 1000) (s.sent b).txNow = 15000 := by
    rw [spacingLeft, elapsed, toNat_sub_earlier, Nat.mod_eq_of_lt (lt_two_pow hW (by decide))]
    rfl
  rw [State.sendStart, hend, hwait, sent_txNow, later_later]

theorem channelEdges_sent (ea : EdgeAt) (t u offset : Timestamp W) (b : Byte) :
    channelEdges ea offset (frameWave t b ++ [.sendReturned u]) = frameEdges ea (t + offset) b := by
  rw [channelEdges_append, channelEdges_frameWave]
  exact List.append_nil _

theorem exec_send_next {b : Byte} {s t : State} (h : exec (.send b) s = .next t) : t = s.sent b := by
  obtain ⟨-, -, ht⟩ := exec_next_cases h
  exact ht

theorem observedSince_eq {s t : State W} {os : List (Observation W)} (h : t.observed = s.observed ++ os) :
    s.observedSince t = os := by
  rw [State.observedSince, h, List.drop_left]

/-- The edges of a SEND, through the ideal channel. -/
theorem channelEdges_send {b : Byte} {s t : State} (hc : s.carrier = .off) (h : exec (.send b) s = .next t)
    (ea : EdgeAt) (offset : Timestamp) :
    channelEdges ea offset (s.observedSince t) = frameEdges ea (s.sendStart + offset) b := by
  rw [exec_send_next h, observedSince_eq (sent_observed hc b), channelEdges_sent]

/-! The queue as a list: PUSH keeps the last seven (R140, R144). -/

theorem Memory.length_oldestFirst (m : Memory) (n : Nat) (h : n ≤ Config.qSlots) :
    (m.oldestFirst n h).length = n := by
  induction n with
  | zero => rfl
  | succ n ih => rw [Memory.oldestFirst, List.length_cons, ih]

theorem length_unread (s : State W) : s.unread.length = s.count.val := Memory.length_oldestFirst _ _ _

theorem length_unread_le (s : State W) : s.unread.length ≤ 7 := (length_unread s).trans_le (Fin.is_le s.count)

theorem unread_of_count {s : State W} {n : Nat} (h : s.count.val = n) :
    s.unread = s.buf.oldestFirst n (h ▸ Nat.le_of_lt s.count.isLt) := by
  subst h
  rfl

theorem unread_pushByte (s : State W) (v : Byte) :
    (s.pushByte v).unread = (if s.count.val = 7 then s.unread.tail else s.unread) ++ [v] := by
  have hc := pushByte_count_val s v
  by_cases h : s.count.val = 7
  · have hpush : (s.pushByte v).count.val = 6 + 1 := by omega
    rw [if_pos h, unread_of_count hpush, oldestFirst_pushByte s v 6 _ (by omega), unread_of_count h]
    rfl
  · have hpush : (s.pushByte v).count.val = s.count.val + 1 := by omega
    rw [if_neg h, unread_of_count hpush, oldestFirst_pushByte s v _ _ le_rfl]
    rfl

theorem lastSeven_of_length_le {l : List Byte} (h : l.length ≤ 7) : lastSeven l = l := by
  rw [lastSeven, Nat.sub_eq_zero_of_le h, List.drop_zero]

/-- What went out of the last seven before does not come back. -/
theorem lastSeven_append (l m : List Byte) : lastSeven (lastSeven l ++ m) = lastSeven (l ++ m) := by
  have hdrop : lastSeven l ++ m = (l ++ m).drop (l.length - 7) :=
    (List.drop_append_of_le_length (Nat.sub_le _ _)).symm
  rw [hdrop, lastSeven, lastSeven, List.drop_drop, List.length_drop, List.length_append]
  congr 1
  simp only [Config.qMax]
  omega

theorem unread_pushByte_eq_lastSeven (s : State W) (v : Byte) :
    (s.pushByte v).unread = lastSeven (s.unread ++ [v]) := by
  have hl := length_unread s
  have hc := s.count.isLt
  rw [unread_pushByte, lastSeven, List.length_append, hl]
  split
  · next h => rw [h, List.drop_append_of_le_length (by simp; omega), ← List.drop_one]; rfl
  · next h => rw [Nat.sub_eq_zero_of_le (by simp; omega), List.drop_zero]

/-! The decoder takes the edges that close given gaps. EDGE always answers a next state. -/

theorem execAll_edges (es : List Timestamp) (s : State) :
    execAll (es.map .edge) s = .next (es.foldl State.takeEdge s) := by
  induction es generalizing s with
  | nil => rfl
  | cons e es ih => exact (execAll_cons rfl).trans (ih (s.takeEdge e))

theorem takeEdge_after_newFrame {s : State W} {e : Timestamp W} (hen : s.rxEnabled = true)
    (hg : 15000 < elapsed e s.previousEdgeTimestamp) : s.takeEdge e = s.newFrame e :=
  takeEdge_newFrame hen (gapClass_newFrame.mpr hg)

theorem gap_later (s : State W) {g : Nat} (hg : g ≤ 15000) (hW : Config.minTsWidth ≤ W := by decide) :
    s.gap (later s.previousEdgeTimestamp g) = g := elapsed_later _ (lt_two_pow hW (hg.trans_lt (by decide)))

section
variable {s : State} {g : Nat} (hen : s.rxEnabled = true)
include hen

theorem takeEdge_gap_header (hs : s.headerSeen = false) (hg : g ≤ 15000) :
    s.takeEdge (later s.previousEdgeTimestamp g) = s.headerBoundary (later s.previousEdgeTimestamp g) :=
  takeEdge_header hen (gapClass_header.mpr ⟨(gap_later s hg).trans_le hg, hs⟩)

theorem takeEdge_gap_data (hs : s.headerSeen = true) (hg : g ≤ 15000) :
    s.takeEdge (later s.previousEdgeTimestamp g) = s.dataEdge (later s.previousEdgeTimestamp g) :=
  takeEdge_data hen (gapClass_data.mpr ⟨(gap_later s hg).trans_le hg, hs⟩)

/-- A data gap that is not the seventh shifts its bit in. -/
theorem takeEdge_gap_shift (hs : s.headerSeen = true) (hg : g ≤ 15000) (hn : s.bitCount ≠ 6) :
    s.takeEdge (later s.previousEdgeTimestamp g) = { s with
      shiftRegister := shiftIn s.shiftRegister (dataBit g)
      bitCount := s.bitCount + 1
      previousEdgeTimestamp := later s.previousEdgeTimestamp g } := by
  rw [takeEdge_gap_data hen hs hg, dataEdge_shift hn, gap_later s hg]
  rfl

/-- The seventh data gap pushes the byte. -/
theorem takeEdge_gap_complete (hs : s.headerSeen = true) (hg : g ≤ 15000) (hn : s.bitCount = 6) :
    s.takeEdge (later s.previousEdgeTimestamp g) = { s.pushByte (shiftIn s.shiftRegister (dataBit g)) with
      shiftRegister := 0
      bitCount := 0
      previousEdgeTimestamp := later s.previousEdgeTimestamp g } := by
  rw [takeEdge_gap_data hen hs hg, dataEdge_complete hn, gap_later s hg]

end

/-- As many data gaps as complete a byte push the register with their bits shifted in, and nothing is left
accumulated (R79, R125). -/
theorem foldl_takeEdge_byte (gs : List Nat) {s : State} (hen : s.rxEnabled = true) (hs : s.headerSeen = true)
    (hg : ∀ g ∈ gs, g ≤ 15000) (hlt : s.bitCount.val < 7) (hn : s.bitCount.val + gs.length = 7) :
    (edgesFrom s.previousEdgeTimestamp gs).foldl State.takeEdge s =
      { s.pushByte ((gs.map dataBit).foldl shiftIn s.shiftRegister) with
        shiftRegister := 0
        bitCount := 0
        previousEdgeTimestamp := later s.previousEdgeTimestamp gs.sum } := by
  induction gs generalizing s with
  | nil => exact absurd hn hlt.ne
  | cons g gs ih =>
    obtain ⟨hg0, hgs⟩ := List.forall_mem_cons.mp hg
    rw [List.length_cons] at hn
    rw [edgesFrom, List.foldl_cons, List.sum_cons, ← later_later]
    by_cases h6 : s.bitCount = 6
    · have hval : s.bitCount.val = 6 := congrArg Fin.val h6
      obtain rfl : gs = [] := List.length_eq_zero_iff.mp (by omega)
      rw [takeEdge_gap_complete hen hs hg0 h6]
      simp [edgesFrom]
    · have hne : s.bitCount.val ≠ 6 := fun hv => h6 (Fin.ext hv)
      have hval : (s.bitCount + 1).val = s.bitCount.val + 1 := Fin.val_add_one_of_lt' (by omega)
      rw [takeEdge_gap_shift hen hs hg0 h6]
      exact ih (s := { s with
          shiftRegister := shiftIn s.shiftRegister (dataBit g)
          bitCount := s.bitCount + 1
          previousEdgeTimestamp := later s.previousEdgeTimestamp g })
        hen hs hgs (by simp only [hval]; omega) (by simp only [hval]; omega)

/-! What a frame's edges decode to (R80). -/

theorem bitGap_le (b : Byte) (i : Nat) : bitGap b i ≤ 15000 := by
  unfold bitGap
  split <;> decide

theorem dataBit_bitGap (b : Byte) (i : Nat) : dataBit (bitGap b i) = b.getLsbD i := by
  unfold bitGap
  split <;> simp_all [dataBit_eq]

/-- Bits 7 to 1 of a byte, shifted in. -/
theorem foldl_shiftIn_upper_bits (b : Byte) : ([7, 6, 5, 4, 3, 2, 1].map b.getLsbD).foldl shiftIn 0 = b >>> 1 := by
  revert b
  decide

theorem shiftIn_lowest_bit (b : Byte) : shiftIn 0 (b.getLsbD 0) = b &&& 1 := by
  revert b
  decide

/-- The eight gaps of a byte's bits, from a cleared accumulator: seven make a byte, and one is left accumulated. -/
theorem foldl_takeEdge_bitGaps (b : Byte) {s : State} (hen : s.rxEnabled = true) (hs : s.headerSeen = true)
    (hn : s.bitCount = 0) (hsr : s.shiftRegister = 0) :
    (edgesFrom s.previousEdgeTimestamp ([7, 6, 5, 4, 3, 2, 1, 0].map (bitGap b))).foldl State.takeEdge s =
      { s.pushByte (b >>> 1) with
        shiftRegister := b &&& 1
        bitCount := 1
        previousEdgeTimestamp := later s.previousEdgeTimestamp ([7, 6, 5, 4, 3, 2, 1, 0].map (bitGap b)).sum } := by
  have hsplit : [7, 6, 5, 4, 3, 2, 1, 0].map (bitGap b) = [7, 6, 5, 4, 3, 2, 1].map (bitGap b) ++ [bitGap b 0] := rfl
  have hbits : ([7, 6, 5, 4, 3, 2, 1].map (bitGap b)).map dataBit = [7, 6, 5, 4, 3, 2, 1].map b.getLsbD := by
    rw [List.map_map]
    exact List.map_congr_left fun i _ => dataBit_bitGap b i
  have hbyte := foldl_takeEdge_byte ([7, 6, 5, 4, 3, 2, 1].map (bitGap b)) hen hs
    (List.forall_mem_map.mpr fun i _ => bitGap_le b i) (by rw [hn]; decide) (by rw [hn]; rfl)
  rw [hbits, hsr, foldl_shiftIn_upper_bits] at hbyte
  rw [hsplit, edgesFrom_append, List.foldl_append, hbyte, List.sum_append, ← later_later]
  refine (takeEdge_gap_shift (by exact hen) (by exact hs) (bitGap_le b 0) (show (0 : Fin 8) ≠ 6 by decide)).trans ?_
  rw [dataBit_bitGap, shiftIn_lowest_bit]
  rfl

/-- The edges of a frame after a new-frame gap. -/
theorem foldl_takeEdge_frame (ea : EdgeAt) (t : Timestamp) (b : Byte) {r : State} (hen : r.rxEnabled = true)
    (hgap : 15000 < elapsed (later t ea.firstEdge) r.previousEdgeTimestamp) :
    (frameEdges ea t b).foldl State.takeEdge r =
      { r.pushByte (b >>> 1) with
        headerSeen := true
        shiftRegister := b &&& 1
        bitCount := 1
        previousEdgeTimestamp := later t (ea.firstEdge + (frameGaps ea b).sum) } := by
  have hheader : (r.newFrame (later t ea.firstEdge)).takeEdge (later (later t ea.firstEdge) ea.headerGap) = _ :=
    takeEdge_gap_header hen rfl (by cases ea <;> decide)
  rw [frameEdges, frameGaps, edgesFrom, List.foldl_cons, List.foldl_cons, takeEdge_after_newFrame hen hgap, hheader]
  refine (foldl_takeEdge_bitGaps b (by exact hen) rfl rfl rfl).trans ?_
  rw [List.sum_cons, ← later_later, ← later_later]
  rfl

end Sys2Proof.Machine

namespace Sys2Proof.Machine

/-! Seven bits as a number. -/

theorem shiftIn_ofNat (n : Nat) (bit : Bool) : shiftIn (BitVec.ofNat 8 n) bit = BitVec.ofNat 8 (2 * n + bit.toNat) := by
  apply BitVec.eq_of_toNat_eq
  rw [toNat_shiftIn, BitVec.toNat_ofNat, BitVec.toNat_ofNat]
  omega

/-- Bits shifted in one after the other double the number and add the bit, modulo 2^8. -/
theorem foldl_shiftIn_ofNat (bits : List Bool) (n : Nat) :
    bits.foldl shiftIn (BitVec.ofNat 8 n) = BitVec.ofNat 8 (bits.foldl (fun m bit => 2 * m + bit.toNat) n) := by
  induction bits generalizing n with
  | nil => rfl
  | cons bit bits ih => rw [List.foldl_cons, shiftIn_ofNat, ih, List.foldl_cons]

theorem toNat_dataBit (g : Nat) : (dataBit g).toNat = gapBit g := by
  rw [dataBit_eq, gapBit]
  split <;> simp_all

/-! Bytes sent one after the other, each SEND called when the last returns. -/

/-- The edges of the frames of `bs`, of which the first one's header mark starts at `t` and each later one's 15000
after the frame before it (R76, R109). -/
def linkEdges (ea : EdgeAt) : Timestamp → List Byte → List Timestamp
  | _, [] => []
  | t, b :: bs => frameEdges ea t b ++ linkEdges ea (later t (24054 + 1125 * popcount b + 15000)) bs

theorem head_linkEdges {ea : EdgeAt} {t e : Timestamp} {bs : List Byte} (h : (linkEdges ea t bs).head? = some e) :
    e = later t ea.firstEdge := by
  cases bs with
  | nil => cases h
  | cons b bs => exact (Option.some.inj h).symm

/-- The sender's side: what the SENDs add to the observations makes these edges. -/
theorem execAll_sends_edges (ea : EdgeAt) (offset : Timestamp) (bs : List Byte) {s t : State} (hc : s.carrier = .off)
    (h : execAll (bs.map .send) s = .next t) :
    ∃ os, t.observed = s.observed ++ os ∧ channelEdges ea offset os = linkEdges ea (s.sendStart + offset) bs := by
  induction bs generalizing s with
  | nil =>
    cases h
    exact ⟨[], (List.append_nil _).symm, rfl⟩
  | cons b bs ih =>
    obtain ⟨u, hu, ht⟩ := execAll_cons_next h
    obtain rfl := exec_send_next hu
    obtain ⟨os, hos, hedges⟩ := ih (sent_carrier s b) ht
    refine ⟨_, by rw [hos, sent_observed hc, List.append_assoc], ?_⟩
    rw [channelEdges_append, channelEdges_sent, hedges, sent_sendStart, later_add]
    rfl

/-- From a frame's last edge to the next frame's first one is a new-frame gap. -/
theorem newFrame_gap_after_frame (ea : EdgeAt) (t : Timestamp) (b : Byte) :
    15000 < elapsed (later (later t (24054 + 1125 * popcount b + 15000)) ea.firstEdge)
      (later t (ea.firstEdge + (frameGaps ea b).sum)) := by
  have hpop := popcount_le b
  have hedge : ea.headerGap ≤ 13500 ∧ ea.firstEdge ≤ 9000 := by cases ea <;> decide
  obtain ⟨hheader, hfirst⟩ := hedge
  rw [sum_frameGaps, later_later, elapsed_later_later _ (by omega) (by simp only [tsWidth]; omega)]
  omega

/-- The receiver's side: after a new-frame gap the bytes arrive halved and in order. -/
theorem foldl_takeEdge_link (ea : EdgeAt) (bs : List Byte) {t : Timestamp} {r : State} (hen : r.rxEnabled = true)
    (hgap : ∀ e, (linkEdges ea t bs).head? = some e → 15000 < elapsed e r.previousEdgeTimestamp) :
    ((linkEdges ea t bs).foldl State.takeEdge r).unread = lastSeven (r.unread ++ bs.map (fun b : Byte => b >>> 1)) := by
  induction bs generalizing t r with
  | nil => rw [List.map_nil, List.append_nil, lastSeven_of_length_le (length_unread_le r)]; rfl
  | cons b bs ih =>
    obtain ⟨u, hu, henu, hprev, hunread⟩ : ∃ u, (frameEdges ea t b).foldl State.takeEdge r = u ∧
        u.rxEnabled = true ∧ u.previousEdgeTimestamp = later t (ea.firstEdge + (frameGaps ea b).sum) ∧
        u.unread = lastSeven (r.unread ++ [b >>> 1]) :=
      ⟨_, foldl_takeEdge_frame ea t b hen (hgap _ rfl), hen, rfl, unread_pushByte_eq_lastSeven r _⟩
    have hnext : ∀ e, (linkEdges ea (later t (24054 + 1125 * popcount b + 15000)) bs).head? = some e →
        15000 < elapsed e u.previousEdgeTimestamp := by
      intro e he
      rw [head_linkEdges he, hprev]
      exact newFrame_gap_after_frame ea t b
    rw [linkEdges, List.foldl_append, hu, ih henu hnext, hunread, lastSeven_append, List.append_assoc]
    rfl

end Sys2Proof.Machine

section
open Sys2Proof Sys2Proof.Machine

/-- Settles O33: seven data gaps complete the byte, and the register that is pushed has shifted in their bits. -/
theorem sevenGapsMakeAByte : Obligations.SevenGapsMakeAByte := by
  intro s g₆ g₅ g₄ g₃ g₂ g₁ g₀ hen hs hn hsr hg
  have hbyte := foldl_takeEdge_byte _ hen hs hg (by rw [hn]; decide) (by rw [hn]; rfl)
  have hvalue : ([g₆, g₅, g₄, g₃, g₂, g₁, g₀].map dataBit).foldl shiftIn s.shiftRegister =
      BitVec.ofNat 8 (gapBit g₆ * 64 + gapBit g₅ * 32 + gapBit g₄ * 16 + gapBit g₃ * 8 + gapBit g₂ * 4 +
        gapBit g₁ * 2 + gapBit g₀) := by
    rw [hsr]
    refine (foldl_shiftIn_ofNat _ 0).trans (congrArg (BitVec.ofNat 8) ?_)
    simp only [List.map_cons, List.map_nil, List.foldl_cons, List.foldl_nil, toNat_dataBit]
    omega
  rw [hvalue] at hbyte
  exact ⟨_, _, (execAll_edges _ s).trans (congrArg Host.Outcome.next hbyte), rfl, rfl, rfl, hs, rfl, rfl⟩

/-- Settles O43: the carrier's changes during SEND are the frame's, and each edge is a transition of one symbol. -/
theorem frameMakesTenEdges : Obligations.FrameMakesTenEdges := by
  intro b s t offset _ hc h
  have hedges := fun ea => channelEdges_send hc h ea offset
  constructor
  · rintro e rfl
    rw [hedges, frameEdges, EdgeAt.firstEdge, later_zero]
    rfl
  · rintro e rfl
    rw [hedges, frameEdges, add_right_comm]
    rfl

/-- Settles O44: the header's two edges clear the accumulator, bits 7 to 1 make the byte, and bit 0 is left over. -/
theorem frameArrivesHalved : Obligations.FrameArrivesHalved := by
  rintro b s t r ea offset edges - hc h rfl hen hgap
  rw [channelEdges_send hc h] at hgap ⊢
  refine ⟨_, (execAll_edges _ r).trans (congrArg Host.Outcome.next
    (foldl_takeEdge_frame ea _ b hen (hgap _ rfl))), ?_, rfl, rfl, rfl⟩
  exact unread_pushByte r (b >>> 1)

/-- Settles O47: the sender's frames are 15000 apart, so that each is decoded after a new-frame gap, and PUSH keeps the
last seven. -/
theorem linkDeliversHalvedBytesInOrder : Obligations.LinkDeliversHalvedBytesInOrder := by
  rintro bs s t r ea offset edges - hc h rfl hen hgap
  obtain ⟨os, hos, hedges⟩ := execAll_sends_edges ea offset bs hc h
  rw [observedSince_eq hos, hedges] at hgap ⊢
  exact ⟨_, execAll_edges _ r, foldl_takeEdge_link ea bs hen hgap⟩

end

/-! Proofs of the transmitter's statements (40_transmitter.md): each operation and sequencer step, when a SEND starts, how
long it blocks, and that the sequencer's run is the one-step SEND. -/

namespace Sys2Proof.Machine

variable {W : Nat}

/-! The carrier and the segments: neighbouring segments have different levels. -/

theorem setCarrier_of_eq {s : State W} {l : Carrier} (h : s.carrier = l) : s.setCarrier l = s := by
  subst h
  simp [State.setCarrier]

theorem level_ne_of_succ {j k : SegIx} (h : k.val = j.val + 1) : level j ≠ level k := by
  intro he
  have hon := level_eq_on (k := j)
  rw [he, level_eq_on] at hon
  omega

theorem carrier_eq_level {s : State W} (hp : s.txPhase = .emit) (h : s.carrierOk) : s.carrier = level s.seg := by
  have hon := (carrierOk_emit_iff hp).mp h
  rw [← level_eq_on] at hon
  cases hc : s.carrier with
  | on => exact (hon.mp hc).symm
  | off =>
    cases hl : level s.seg with
    | off => rfl
    | on => exact absurd (hon.mpr hl) (by simp [hc])

theorem nextSeg_of_succ {j k : SegIx} (h : k.val = j.val + 1) : nextSeg j = k :=
  Fin.ext ((Fin.val_add_one_of_lt' (by have := k.isLt; omega)).trans h.symm)

theorem ne_lastSeg_iff {k : SegIx} : k ≠ lastSeg ↔ k.val ≤ 18 := by
  revert k
  decide

theorem eq_lastSeg_iff {k : SegIx} : k = lastSeg ↔ k.val = 19 := Fin.ext_iff

theorem ne_lastSeg_of_succ {j k : SegIx} (h : k.val = j.val + 1) : j ≠ lastSeg :=
  ne_lastSeg_iff.mpr (by have hk : k.val < 20 := k.isLt; omega)

/-! The sequencer's steps, where they are enabled (R103, R104, R106). -/

theorem exec_txSeg_over {s : State} (hp : s.txPhase = .emit) (hs : s.seg ≠ lastSeg) (hn : s.txNow = s.segEnd) :
    exec .txSeg s = .next (s.startSegment (nextSeg s.seg)) :=
  execTxSeg_next.mpr ⟨(segmentOver_iff s).mpr ⟨hp, hs, hn⟩, rfl⟩

theorem exec_txDone_over {s : State} (hp : s.txPhase = .emit) (hs : s.seg = lastSeg) (hn : s.txNow = s.segEnd) :
    exec .txDone s = .next s.frameDone :=
  execTxDone_next.mpr ⟨(frameOver_iff s).mpr ⟨hp, hs, hn⟩, rfl⟩

theorem spacingMet_iff (s : State W) : s.spacingMet = true ↔ 16000 ≤ elapsed s.txNow s.lastFrameEndTimestamp :=
  decide_eq_true_iff

theorem exec_txWait_met {s : State} (hp : s.txPhase = .wait)
    (h : 16000 ≤ elapsed s.txNow s.lastFrameEndTimestamp) : exec .txWait s = .next (s.startSegment 0) :=
  execTxWait_next.mpr ⟨hp, (if_pos ((spacingMet_iff s).mpr h)).symm⟩

theorem exec_txWait_unmet {s : State} (hp : s.txPhase = .wait)
    (h : ¬ 16000 ≤ elapsed s.txNow s.lastFrameEndTimestamp) : exec .txWait s = .next s :=
  execTxWait_next.mpr ⟨hp, (if_neg (mt (spacingMet_iff s).mp h)).symm⟩

/-! SEND: what the one step leaves, and when it starts and ends (R101, R103, R107). -/

theorem exec_send_ready {s : State} (he : s.txEnabled = true) (hp : s.txPhase = .idle) (b : Byte) :
    exec (.send b) s = .next (s.sent b) := onReadyTx_ready he hp _

theorem sent_txEnabled (s : State W) (b : Byte) : (s.sent b).txEnabled = s.txEnabled := by rw [sent_eq_any]

/-- The recorded frame end is the stop mark's end (R110). -/
theorem sent_lastFrameEndTimestamp (s : State W) (b : Byte) :
    (s.sent b).lastFrameEndTimestamp = later s.sendStart (24054 + 1125 * popcount b - 1000) := by
  rw [sent_eq_any]
  exact earlier_later _ _ _ (by omega)

/-- At the return 1000 have passed since the recorded frame end (R106). -/
theorem sent_txNow_eq_later (s : State W) (b : Byte) :
    (s.sent b).txNow = later (s.sent b).lastFrameEndTimestamp 1000 := by
  rw [sent_lastFrameEndTimestamp, sent_txNow, later_later]
  exact congrArg (later s.sendStart) (by omega)

/-- Without a wrap the clock values are numbers, and the wait ends at 16000 after the recorded end, or at once. -/
theorem toNat_sendStart {s : State} (hle : s.lastFrameEndTimestamp.toNat ≤ s.txNow.toNat)
    (hlt : s.lastFrameEndTimestamp.toNat + 16000 < 2 ^ 32) :
    s.sendStart.toNat = max s.txNow.toNat (s.lastFrameEndTimestamp.toNat + 16000) := by
  have hgap : elapsed s.txNow s.lastFrameEndTimestamp = s.txNow.toNat - s.lastFrameEndTimestamp.toNat :=
    BitVec.toNat_sub_of_le hle
  have hnow := s.txNow.isLt
  simp only [State.sendStart, spacingLeft, Config.minFrameInterval, hgap, later, BitVec.toNat_add, BitVec.toNat_ofNat,
    tsWidth] at *
  omega

/-- A SEND called when the spacing is met does not wait (R103). -/
theorem sendStart_of_spacing_met {s : State W} (h : 16000 ≤ elapsed s.txNow s.lastFrameEndTimestamp) :
    s.sendStart = s.txNow := by
  rw [State.sendStart, spacingLeft, Nat.sub_eq_zero_of_le h, later_zero]

/-- From the call to the return: the wait and the frame. -/
theorem elapsed_sent (s : State) (b : Byte) :
    ((s.sent b).txNow - s.txNow).toNat = (s.sendStart - s.txNow).toNat + (24054 + 1125 * popcount b) := by
  have hwait := sendStart_wait_le s
  have hpop := popcount_le b
  rw [sent_txNow]
  refine (elapsed_later_mod s.sendStart s.txNow _).trans (Nat.mod_eq_of_lt ?_)
  simp only [elapsed, tsWidth] at *
  omega

/-! When an operation answers a next state. -/

theorem exec_next_iff {i : Instr} {s t : State} : exec i s = .next t ↔ Effect i s t := by
  rw [← execAt_default, execAt_next_iff]

/-! Time passes: the sequencer's next step is taken when it is due, and not before. -/

theorem sequencerNext_idle {s : State W} (hp : s.txPhase = .idle) : s.sequencerNext = none := by
  simp [State.sequencerNext, hp]

theorem sequencerNext_wait {s : State W} (hp : s.txPhase = .wait) :
    s.sequencerNext = some (spacingLeft s.lastFrameEndTimestamp s.txNow, .txWait) := by
  simp [State.sequencerNext, hp]

theorem sequencerNext_emit {s : State W} (hp : s.txPhase = .emit) :
    s.sequencerNext = some (elapsed s.segEnd s.txNow, if s.seg = lastSeg then .txDone else .txSeg) := by
  simp [State.sequencerNext, hp]

section
variable {s : State} {d k : Nat} {rest : List Input} (hi : s.inputs = .elapse d :: rest)
include hi

theorem step_elapse_due {i : Instr} (hn : s.sequencerNext = some (k, i)) (hk : k ≤ d) :
    step s = exec i (s.advanceTo k d rest) := by
  have hdue : s.sequencerDue d = some (k, i) := by simp [State.sequencerDue, hn, hk]
  simp only [step, stepWith, hi, hdue]

theorem step_elapse_not_due (hn : ∀ p ∈ s.sequencerNext, d < p.1) :
    step s = .next { s.advance d with inputs := rest } := by
  have hdue : s.sequencerDue d = none := by
    simpa [State.sequencerDue, Option.filter_eq_none_iff] using hn
  simp only [step, stepWith, hi, hdue]

theorem step_ends_wait (hp : s.txPhase = .wait) (hk : spacingLeft s.lastFrameEndTimestamp s.txNow = k) (hd : k ≤ d) :
    step s = .next ((s.advanceTo k d rest).startSegment 0) := by
  subst hk
  rw [step_elapse_due hi (sequencerNext_wait hp) hd]
  exact exec_txWait_met hp (spacing_met_after _ _)

theorem step_ends_segment (hp : s.txPhase = .emit) (hs : s.seg ≠ lastSeg) (hk : elapsed s.segEnd s.txNow = k)
    (hd : k ≤ d) : step s = .next ((s.advanceTo k d rest).startSegment (nextSeg s.seg)) := by
  subst hk
  rw [step_elapse_due hi (sequencerNext_emit hp) hd, if_neg hs]
  exact exec_txSeg_over hp hs (later_elapsed _ _)

theorem step_ends_frame (hp : s.txPhase = .emit) (hs : s.seg = lastSeg) (hk : elapsed s.segEnd s.txNow = k)
    (hd : k ≤ d) : step s = .next (s.advanceTo k d rest).frameDone := by
  subst hk
  rw [step_elapse_due hi (sequencerNext_emit hp) hd, if_pos hs]
  exact exec_txDone_over hp hs (later_elapsed _ _)

end

/-! The frame segment by segment, as the sequencer emits it (R104, R105). -/

/-- One segment of the byte `b` on the wire. -/
def State.emitSeg (b : Byte) (s : State W) (k : SegIx) : State W := s.emitSegment (level k) (dur k b)

/-- The segments from `k` on. -/
def segsFrom (k : SegIx) : List SegIx := (List.finRange Config.segs).drop k.val

theorem segsFrom_eq_cons {j k : SegIx} (h : k.val = j.val + 1) : segsFrom j = j :: segsFrom k := by
  revert j k
  decide

theorem segsFrom_lastSeg : segsFrom lastSeg = [lastSeg] := rfl

theorem emitFrame_eq_segments (s : State W) (b : Byte) : s.emitFrame b = (segsFrom 0).foldl (State.emitSeg b) s := by
  have hmark := mark_dataSym b
  have hspace : ∀ i, (dataSym b i).space = if b.getLsbD i then 1687 else 562 := fun i => apply_ite Sym.space _ _ _
  simp only [State.emitFrame, frameSyms, List.foldl_cons, List.foldl_nil, State.emitSym, hmark, hspace]
  rfl

theorem dur_le (k : SegIx) (b : Byte) : dur k b ≤ 9000 := by
  unfold dur
  split_ifs <;> decide

/-- TX.DONE after the last segment. -/
def State.endFrame (s : State W) : State W := ({ s with seg := lastSeg, segEnd := s.txNow } : State W).frameDone

theorem elapsed_startSegment (u : State) (k : SegIx) :
    elapsed (u.startSegment k).segEnd (u.startSegment k).txNow = dur k u.txByte :=
  elapsed_later _ ((dur_le k u.txByte).trans_lt (by decide))

theorem steps_succ {n : Nat} {s t : State} (h : step s = .next t) : steps (n + 1) s = steps n t := by
  simp only [steps, h]

/-- `s` with these inputs still to be taken. -/
def State.withInputs (s : State W) (is : List (Input W)) : State W := { s with inputs := is }

theorem step_from_segment (u : State) {k l : SegIx} (hl : l.val = k.val + 1) {d : Nat} (hd : dur k u.txByte ≤ d)
    (rest : List Input) :
    step ((u.startSegment k).withInputs (.elapse d :: rest)) =
      .next (((u.emitSeg u.txByte k).startSegment l).withInputs (.elapse (d - dur k u.txByte) :: rest)) := by
  rw [← nextSeg_of_succ hl]
  exact step_ends_segment rfl rfl (ne_lastSeg_of_succ hl) (elapsed_startSegment u k) hd

theorem step_from_lastSeg (u : State) {k : SegIx} (hk : k = lastSeg) {d : Nat} (hd : dur k u.txByte ≤ d)
    (rest : List Input) :
    step ((u.startSegment k).withInputs (.elapse d :: rest)) =
      .next ((u.emitSeg u.txByte k).endFrame.withInputs (.elapse (d - dur k u.txByte) :: rest)) := by
  rw [State.endFrame, ← hk]
  exact step_ends_frame rfl rfl hk (elapsed_startSegment u k) hd

theorem step_elapse_zero {s : State} (hp : s.txPhase = .idle) (rest : List Input) :
    step (s.withInputs (.elapse 0 :: rest)) = .next (s.withInputs rest) := by
  have hnone : (s.withInputs (.elapse 0 :: rest)).sequencerNext = none := sequencerNext_idle hp
  rw [step_elapse_not_due rfl (by simp [hnone]), State.advance, later_zero]
  rfl

/-- From the start of segment `k`, exactly the time of the segments left: one step for each of them, and one in which no
time is left to pass. -/
theorem steps_from_segment (n : Nat) {k : SegIx} (hn : k.val + n = 19) (u : State) (rest : List Input) :
    steps (n + 2) ((u.startSegment k).withInputs (.elapse ((segsFrom k).map (fun j => dur j u.txByte)).sum :: rest)) =
      .next (((segsFrom k).foldl (State.emitSeg u.txByte) u).endFrame.withInputs rest) := by
  induction n generalizing k u with
  | zero =>
    obtain rfl : k = lastSeg := eq_lastSeg_iff.mpr hn
    rw [segsFrom_lastSeg, List.map_singleton, List.sum_singleton, steps_succ (step_from_lastSeg u rfl le_rfl rest),
      Nat.sub_self]
    exact steps_succ (step_elapse_zero rfl rest)
  | succ n ih =>
    obtain ⟨l, hl⟩ : ∃ l : SegIx, l.val = k.val + 1 := ⟨⟨k.val + 1, by simp only [Config.segs]; omega⟩, rfl⟩
    rw [segsFrom_eq_cons hl, List.map_cons, List.sum_cons, List.foldl_cons,
      steps_succ (step_from_segment u hl (Nat.le_add_right _ _) rest), Nat.add_sub_cancel_left]
    exact ih (by omega) (u.emitSeg u.txByte k)

theorem step_from_accept (s : State) (b : Byte) {d : Nat}
    (hd : spacingLeft s.lastFrameEndTimestamp s.txNow ≤ d) (rest : List Input) :
    step ((s.accept b).withInputs (.elapse d :: rest)) =
      .next ((((s.accept b).advance (spacingLeft s.lastFrameEndTimestamp s.txNow)).startSegment 0).withInputs
        (.elapse (d - spacingLeft s.lastFrameEndTimestamp s.txNow) :: rest)) :=
  step_ends_wait rfl rfl rfl hd

/-- A SEND presented, and then exactly the time of its wait and its frame. -/
theorem steps_present_send {s : State} (he : s.txEnabled = true) (hp : s.txPhase = .idle) (b : Byte)
    (rest : List Input) :
    steps 23 (s.withInputs (.present b :: .elapse (spacingLeft s.lastFrameEndTimestamp s.txNow + frameDuration b) ::
      rest)) = .next ((s.withInputs rest).sent b) := by
  have haccept : ∀ is, step (s.withInputs (.present b :: is)) = .next ((s.accept b).withInputs is) :=
    fun is => onReadyTx_ready (s := s.withInputs is) he hp _
  rw [steps_succ (haccept _), steps_succ (step_from_accept s b (Nat.le_add_right _ _) rest), Nat.add_sub_cancel_left]
  refine (steps_from_segment 19 rfl ((s.accept b).advance (spacingLeft s.lastFrameEndTimestamp s.txNow)) rest).trans ?_
  rw [← emitFrame_eq_segments, emitFrame_eq_any, sent_eq_any]
  rfl

end Sys2Proof.Machine

section
open Sys2Proof Sys2Proof.Machine

/-- Settles O6: the sequencer's next step is run with the clock at its due value, where it is enabled. -/
theorem sequencerActsExactlyOnTime : Obligations.SequencerActsExactlyOnTime := by
  intro s d rest hi
  refine ⟨fun hp => ?idle, fun k hp hk hd => ?wait, fun k hp hs hk hd => ?segment, fun k hp hs hk hd => ?frame,
    fun hw he => ?early⟩
  case idle => exact step_elapse_not_due hi (by simp [sequencerNext_idle hp])
  case wait => exact ⟨_, step_ends_wait hi hp hk hd, rfl, rfl, rfl, rfl, rfl, rfl⟩
  case segment =>
    have hnow : later s.txNow k = s.segEnd := hk ▸ later_elapsed s.segEnd s.txNow
    have hnext : (nextSeg s.seg).val = s.seg.val + 1 := Fin.val_add_one_of_lt' (Nat.succ_lt_succ hs)
    refine ⟨_, step_ends_segment hi hp (ne_lastSeg_iff.mpr (by omega)) hk hd, hnow, rfl, hnext, rfl, ?_, rfl⟩
    rw [← hnow]
    rfl
  case frame =>
    have hnow : later s.txNow k = s.segEnd := hk ▸ later_elapsed s.segEnd s.txNow
    refine ⟨_, step_ends_frame hi hp (eq_lastSeg_iff.mpr hs) hk hd, hnow, rfl, ?_, rfl⟩
    rw [← hnow]
    rfl
  case early =>
    refine step_elapse_not_due hi fun p hmem => ?_
    cases hp : s.txPhase with
    | idle => simp [sequencerNext_idle hp] at hmem
    | wait => rw [sequencerNext_wait hp] at hmem; obtain rfl := Option.mem_some.mp hmem; exact hw hp
    | emit => rw [sequencerNext_emit hp] at hmem; obtain rfl := Option.mem_some.mp hmem; exact he hp

/-- Settles O12: the one step's closed form, from the state that has the carrier off and no SEND in progress. -/
theorem sendEmitsOneFrame : Obligations.SendEmitsOneFrame := by
  rintro b s ts te he hp hc rfl rfl
  rw [exec_send_ready he hp, sent_eq hc, ← hp]
  rfl

/-- Settles O13: before the end of the wait the spacing is not met, and at its end it is. -/
theorem sendStartsAtTheFirstMoment : Obligations.SendStartsAtTheFirstMoment := by
  refine fun s => ⟨⟨spacingLeft s.lastFrameEndTimestamp s.txNow, Nat.sub_le _ _, rfl, sendStart_spacing_met s,
    fun j hj => ?_⟩, toNat_sendStart⟩
  obtain ⟨hunmet, -⟩ := spacing_before s.lastFrameEndTimestamp s.txNow hj
  exact hunmet

/-- Settles O18: each segment's end is one step, and the twenty segments are the one-step SEND's ten symbols. -/
theorem sequencerRunEqualsSend : Obligations.SequencerRunEqualsSend := by
  rintro b s rest time he hp rfl
  rw [← frameDuration_eq, exec_send_ready (s := { s with inputs := rest }) he hp]
  exact steps_present_send he hp b rest

/-- Settles O19: a SEND ends where its frame does, at most 16000 and 33054 after the call. -/
theorem sendBlocksForABoundedTime : Obligations.SendBlocksForABoundedTime := by
  intro b s t h
  obtain rfl := exec_send_next h
  have htime := elapsed_sent s b
  have hwait := sendStart_wait_le s
  have hpop := popcount_le b
  exact ⟨by omega, by omega, hwait, by omega, htime, List.getLast?_concat⟩

/-- Settles O20: at the return 1000 of the 16000 have passed since the recorded frame end. -/
theorem backToBackSendWaitsFifteenThousand : Obligations.BackToBackSendWaitsFifteenThousand := by
  intro b₁ b₂ s t h
  obtain ⟨he, -, rfl⟩ := exec_next_cases h
  have hstart : (s.sent b₁).sendStart = later (s.sent b₁).txNow 15000 := by
    rw [sent_sendStart, sent_txNow, later_later]
  refine ⟨hstart, ?spacing, ?period, fun d hd hlt => ?late, _, exec_send_ready ((sent_txEnabled s b₁).trans he) rfl b₂,
    ?next⟩
  case spacing =>
    rw [hstart, sent_txNow_eq_later, later_later]
    exact elapsed_later _ (by decide)
  case period =>
    have hpop := popcount_le b₁
    rw [sent_sendStart]
    exact elapsed_later _ (by simp only [tsWidth]; omega)
  case late =>
    refine sendStart_of_spacing_met (s := { s.sent b₁ with txNow := later (s.sent b₁).txNow d }) ?_
    rw [sent_txNow_eq_later, later_later]
    exact (show 16000 ≤ 1000 + d by omega).trans_eq (elapsed_later _ (by simp only [tsWidth]; omega)).symm
  case next =>
    rw [sent_txNow, hstart]
    rfl

/-- Settles O21: the recorded frame end is the stop mark's end. -/
theorem headerMarksKeepTheirDistance : Obligations.HeaderMarksKeepTheirDistance := by
  rintro b s t u _ h rfl hu
  obtain rfl := exec_send_next h
  rw [sent_lastFrameEndTimestamp] at hu
  have hmet := sendStart_spacing_met u
  rw [hu] at hmet
  exact hmet

/-- Settles O48: an operation answers a next state exactly under the condition of its effect. -/
theorem whenOperationsAnswerANextState : Obligations.WhenOperationsAnswerANextState := by
  intro i s
  simp only [exec_next_iff]
  cases i with
  | beginTx | send _ | txAccept _ | frame _ | symH | sym0 | sym1 | symS | txWait => simp
  | beginRx | avail | read | edge _ | push _ | reserved110 | reserved111 => simp
  | edgeNewFrame t => simp [gapClass_newFrame, elapsed]
  | edgeHeader t => simp [gapClass_header, elapsed]
  | edgeData t => simp [gapClass_data, elapsed]
  | txSeg => simp [segmentOver_iff, ne_lastSeg_iff]
  | txDone => simp [frameOver_iff, eq_lastSeg_iff]

/-- Settles O10: a second BEGIN_TX finds the carrier off already. -/
theorem beginTxSwitchesTheCarrierOff : Obligations.BeginTxSwitchesTheCarrierOff := by
  intro s hp
  have hbegin : ∀ {s : State}, s.txPhase = .idle →
      exec .beginTx s = .next { s.setCarrier .off with txEnabled := true } :=
    fun hp => execBeginTx_next.mpr ⟨hp, rfl⟩
  refine ⟨?first, fun t ht => ?again⟩
  case first =>
    rw [hbegin hp, State.setCarrier]
    cases hc : s.carrier <;> rfl
  case again =>
    obtain ⟨-, rfl⟩ := exec_next_cases ht
    rw [hbegin (by exact hp), setCarrier_of_eq (by rfl)]

/-- Settles O14: TX.ACCEPT under the guard that SEND has. -/
theorem acceptLatchesTheByte : Obligations.AcceptLatchesTheByte :=
  fun _ _ he hp => onReadyTx_ready he hp _

/-- Settles O15: the header mark is the start of segment 0, with the carrier off before it. -/
theorem waitEndsAtSixteenThousand : Obligations.WaitEndsAtSixteenThousand := by
  intro s hp hc
  split
  · next h =>
    rw [exec_txWait_met hp h, State.startSegment, State.setCarrier, hc]
    rfl
  · next h => exact exec_txWait_unmet hp h

/-- Settles O16: the next segment's level is not the carrier's, which has the level of the segment that ends. -/
theorem segmentsFollowOneAnother : Obligations.SegmentsFollowOneAnother := by
  intro s k hp hn hk hcarrier
  have hne : s.carrier ≠ level k := carrier_eq_level hp hcarrier ▸ level_ne_of_succ hk
  rw [exec_txSeg_over hp (ne_lastSeg_of_succ hk) hn, nextSeg_of_succ hk, State.startSegment, State.setCarrier,
    if_neg hne, ← hp]
  rfl

/-- Settles O17: in the last segment, at its end, TX.DONE is enabled. -/
theorem frameEndIsPulledBack : Obligations.FrameEndIsPulledBack :=
  fun _ hp hs hn => exec_txDone_over hp hs hn

end

/-! Proofs of the frame decoder's statements (41_frame_decoder.md): the three arms of EDGE, and that the bits
accumulated before a new-frame gap stay where no operation can read them. -/

namespace Sys2Proof.Machine

variable {W : Nat}

/-! EDGE and its arms (R121 to R125). -/

theorem onArm_enabled {c : GapClass} {e : Timestamp W} {s : State W} (hen : s.rxEnabled = true) (hc : s.gapClass e = c)
    (s' : State W) : onArm c e s s' = .next s' := if_pos ⟨hen, hc⟩

/-- Whichever arm runs, its last write is the timestamp (R121). -/
theorem takeEdge_previousEdgeTimestamp {s : State W} (hen : s.rxEnabled = true) (e : Timestamp W) :
    (s.takeEdge e).previousEdgeTimestamp = e := by
  rcases takeEdge_cases s e with ⟨h, -⟩ | ⟨-, -, ht⟩ | ⟨-, -, ht⟩ | ⟨-, -, ht⟩
  · exact absurd (h.symm.trans hen) Bool.false_ne_true
  · rw [ht]; rfl
  · rw [ht]; rfl
  · rw [ht]; rfl

/-- The shift and its bit as arithmetic (R78, R124). -/
theorem shiftIn_dataBit (sr : Byte) (g : Nat) : shiftIn sr (dataBit g) = BitVec.ofNat 8 (2 * sr.toNat + gapBit g) := by
  rw [shiftIn_eq, toNat_dataBit]

/-- A seventh bit on six bits makes a value of seven. -/
theorem two_mul_add_gapBit_le {n : Nat} (h : n < 2 ^ 6) (g : Nat) : 2 * n + gapBit g ≤ 127 := by
  unfold gapBit
  split <;> omega

/-- Without a header seen an edge is taken for no data bit. -/
theorem gapClass_ne_data {s : State W} (hs : s.headerSeen = false) (e : Timestamp W) : s.gapClass e ≠ .data :=
  fun hc => Bool.false_ne_true (hs.symm.trans (gapClass_data.mp hc).2)

/-! Stale bits (R127): from a new-frame gap to the next header boundary no bit is taken, and the boundary clears what is
left in the accumulator. So two states that differ there alone, with no header seen, go on alike. -/

/-- `s` with another accumulator. -/
def State.withAccumulator (s : State W) (sr : Byte) (n : Fin 8) : State W :=
  { s with shiftRegister := sr, bitCount := n }

/-- The two states are the same; or no header is seen, and they differ in the accumulator alone. -/
def State.AgreeButStaleBits (s s' : State W) : Prop :=
  s' = s ∨ s.headerSeen = false ∧ ∃ sr n, s' = s.withAccumulator sr n

theorem dropOldest_withAccumulator (s : State W) (sr : Byte) (n : Fin 8) :
    (s.withAccumulator sr n).dropOldest = s.dropOldest.withAccumulator sr n := by
  unfold State.dropOldest
  rw [apply_ite (State.withAccumulator · sr n)]
  rfl

section
variable {s t : State W} (hs : s.headerSeen = false) (sr : Byte) (n : Fin 8)
include hs

/-- With no header seen an edge takes no bit: it leaves the accumulator, or clears it. -/
theorem takeEdge_agreeButStaleBits (e : Timestamp W) :
    (s.takeEdge e).AgreeButStaleBits ((s.withAccumulator sr n).takeEdge e) := by
  rcases takeEdge_cases s e with ⟨h, ht⟩ | ⟨h, hc, ht⟩ | ⟨h, hc, ht⟩ | ⟨-, hc, -⟩
  · rw [ht, takeEdge_disabled (s := s.withAccumulator sr n) h]
    exact .inr ⟨hs, sr, n, rfl⟩
  · rw [ht, takeEdge_newFrame (s := s.withAccumulator sr n) h hc]
    exact .inr ⟨rfl, sr, n, rfl⟩
  · rw [ht, takeEdge_header (s := s.withAccumulator sr n) h hc]
    exact .inl rfl
  · exact absurd hc (gapClass_ne_data hs e)

/-- The transmitter's operations run on either, and leave the receiver's state as they found it. -/
theorem agreeButStaleBits_of_keeps_rx (hrx : t.withRx s = t) :
    t.AgreeButStaleBits (t.withRx (s.withAccumulator sr n)) :=
  .inr ⟨(congrArg State.headerSeen hrx).symm.trans hs, sr, n, congrArg (State.withAccumulator · sr n) hrx⟩

theorem execAt_withAccumulator {i : Instr W} (h : execAt i s = .next t) :
    ∃ t', execAt i (s.withAccumulator sr n) = .next t' ∧ t.AgreeButStaleBits t' := by
  have he := execAt_next_cases h
  cases i with
  | beginTx | send _ | frame _ | symH | sym0 | sym1 | symS | txAccept _ | txWait | txSeg | txDone =>
    exact ⟨_, execAt_withRx rfl h (s.withAccumulator sr n),
      agreeButStaleBits_of_keeps_rx hs sr n (execAt_keeps_rx rfl h)⟩
  | beginRx | push _ | avail => subst he; exact ⟨_, rfl, .inr ⟨hs, sr, n, rfl⟩⟩
  | edge e => subst he; exact ⟨_, rfl, takeEdge_agreeButStaleBits hs sr n e⟩
  | edgeNewFrame e =>
    obtain ⟨hen, hc, rfl⟩ := he
    exact ⟨_, onArm_enabled (s := s.withAccumulator sr n) hen hc _, .inr ⟨rfl, sr, n, rfl⟩⟩
  | edgeHeader e =>
    obtain ⟨hen, hc, rfl⟩ := he
    exact ⟨_, onArm_enabled (s := s.withAccumulator sr n) hen hc _, .inl rfl⟩
  | edgeData e =>
    obtain ⟨-, hc, -⟩ := he
    exact absurd hc (gapClass_ne_data hs e)
  | read =>
    subst he
    refine ⟨_, rfl, .inr ⟨?_, sr, n, ?_⟩⟩
    · rw [dropOldest_frame]; exact hs
    · exact congrArg (State.observe · (.readByte s.oldest)) (dropOldest_withAccumulator s sr n)
  | reserved110 | reserved111 => exact he.elim

end

/-- Every operation keeps the agreement. -/
theorem execAt_agreeButStaleBits {i : Instr W} {s s' t : State W} (ha : s.AgreeButStaleBits s')
    (h : execAt i s = .next t) : ∃ t', execAt i s' = .next t' ∧ t.AgreeButStaleBits t' := by
  rcases ha with rfl | ⟨hs, sr, n, rfl⟩
  · exact ⟨t, h, .inl rfl⟩
  · exact execAt_withAccumulator hs sr n h

/-- Every run of operations keeps the agreement. -/
theorem execAll_agreeButStaleBits {is : List Instr} {s s' t : State} (ha : s.AgreeButStaleBits s')
    (h : execAll is s = .next t) : ∃ t', execAll is s' = .next t' ∧ t.AgreeButStaleBits t' := by
  induction is generalizing s s' with
  | nil => cases h; exact ⟨s', rfl, ha⟩
  | cons i is ih =>
    obtain ⟨u, hu, ht⟩ := execAll_cons_next h
    rw [← execAt_default] at hu
    obtain ⟨u', hu', ha'⟩ := execAt_agreeButStaleBits ha hu
    rw [execAt_default] at hu'
    rw [execAll_cons hu']
    exact ih ha' ht

theorem exec_edge_newFrame {s : State} {e : Timestamp} (hen : s.rxEnabled = true)
    (hg : 15000 < elapsed e s.previousEdgeTimestamp) : exec (.edge e) s = .next (s.newFrame e) :=
  congrArg Host.Outcome.next (takeEdge_after_newFrame hen hg)

end Sys2Proof.Machine

section
open Sys2Proof Sys2Proof.Machine

/-- Settles O34: after the new-frame gap the two runs agree but for stale bits, and every operation keeps that. -/
theorem staleBitsNeverReachTheQueue : Obligations.StaleBitsNeverReachTheQueue := by
  intro is t s sr n hen hg u hu
  have hstart : (s.newFrame t).AgreeButStaleBits ((s.withAccumulator sr n).newFrame t) := .inr ⟨rfl, sr, n, rfl⟩
  rw [execAll_cons (exec_edge_newFrame hen hg)] at hu
  obtain ⟨v, hv, hagree⟩ := execAll_agreeButStaleBits hstart hu
  refine ⟨v, (execAll_cons (exec_edge_newFrame (s := s.withAccumulator sr n) hen hg)).trans hv, ?_⟩
  rcases hagree with rfl | ⟨-, _, _, rfl⟩
  · exact ⟨rfl, rfl, rfl, rfl, rfl⟩
  · exact ⟨rfl, rfl, rfl, rfl, rfl⟩

/-- Settles O26. -/
theorem beginRxArmsTheEdgeSource : Obligations.BeginRxArmsTheEdgeSource := fun _ => ⟨rfl, rfl⟩

/-- Settles O27: the arm that the tests select is enabled, and does what taking the edge does. -/
theorem edgeRunsExactlyOneArm : Obligations.EdgeRunsExactlyOneArm := by
  intro t s hen
  refine ⟨?arm, s.takeEdge t, rfl, takeEdge_previousEdgeTimestamp hen t⟩
  case arm =>
    split
    · next hg =>
      have hc : s.gapClass t = .newFrame := gapClass_newFrame.mpr hg
      exact (congrArg Host.Outcome.next (takeEdge_newFrame hen hc)).trans (onArm_enabled hen hc _).symm
    · next hg =>
      split
      · next hs =>
        have hc : s.gapClass t = .header := gapClass_header.mpr ⟨not_lt.mp hg, hs⟩
        exact (congrArg Host.Outcome.next (takeEdge_header hen hc)).trans (onArm_enabled hen hc _).symm
      · next hs =>
        have hc : s.gapClass t = .data := gapClass_data.mpr ⟨not_lt.mp hg, Bool.eq_true_of_not_eq_false hs⟩
        exact (congrArg Host.Outcome.next (takeEdge_data hen hc)).trans (onArm_enabled hen hc _).symm

/-- Settles O29: a gap above 15000 selects the arm. -/
theorem newFrameLeavesTheAccumulator : Obligations.NewFrameLeavesTheAccumulator :=
  fun _ _ hen hg => onArm_enabled hen (gapClass_newFrame.mpr hg) _

/-- Settles O30: any other gap selects the arm while no header is seen. -/
theorem headerBoundaryClearsTheAccumulator : Obligations.HeaderBoundaryClearsTheAccumulator :=
  fun _ _ hen hg hs => onArm_enabled hen (gapClass_header.mpr ⟨hg, hs⟩) _

/-- Settles O31: the bit is not the seventh, so the data arm shifts it in and no more. -/
theorem dataEdgeShiftsOneBit : Obligations.DataEdgeShiftsOneBit := by
  intro t s n hen hg hs hn h6
  refine (onArm_enabled hen (gapClass_data.mpr ⟨hg, hs⟩) _).trans (congrArg Host.Outcome.next ?_)
  have hne : s.bitCount ≠ 6 := fun h => by rw [h] at hn; omega
  have hcount : s.bitCount + 1 = n := Fin.ext ((Fin.val_add_one_of_lt' (by omega)).trans hn.symm)
  rw [dataEdge_shift hne, State.accumulate, shiftIn_dataBit, hcount]
  rfl

/-- Settles O32: the bit is the seventh, so the data arm pushes the register with it shifted in. -/
theorem seventhBitCompletesTheByte : Obligations.SeventhBitCompletesTheByte := by
  intro t s v hen hg hs hn hv
  refine ⟨fun hacc => ?range, s.pushByte v, rfl, hs, ?complete⟩
  case range =>
    obtain ⟨-, hr⟩ := hacc
    rw [hn] at hr
    rw [hv, BitVec.toNat_ofNat]
    exact (Nat.mod_le _ _).trans (two_mul_add_gapBit_le hr _)
  case complete =>
    have hshift : shiftIn s.shiftRegister (dataBit (s.gap t)) = v := (shiftIn_dataBit _ _).trans hv.symm
    refine (onArm_enabled hen (gapClass_data.mpr ⟨hg, hs⟩) _).trans (congrArg Host.Outcome.next ?_)
    rw [dataEdge_complete hn, hshift]

end

/-! Proofs of the receive queue's statements (42_receive_queue.md): PUSH, AVAIL and READ on the slots and on the list of
unread bytes, and runs of PUSHes and of READs. -/

namespace Sys2Proof.Machine

variable {W : Nat}

/-! The unread bytes, oldest first, under READ (R142). -/

theorem count_eq_zero_or_succ (s : State W) : s.count = 0 ∨ ∃ c : Slot, s.count.val = c.val + 1 := by
  rcases s.count.val.eq_zero_or_pos with h | h
  · exact .inl (Fin.ext h)
  · exact .inr (exists_count_eq_succ h)

theorem unread_of_count_eq_zero {s : State W} (h : s.count = 0) : s.unread = [] :=
  List.eq_nil_of_length_eq_zero ((length_unread s).trans (congrArg Fin.val h))

theorem oldest_eq_headD_unread (s : State W) : s.oldest = s.unread.headD 0 := by
  rcases count_eq_zero_or_succ s with h | ⟨c, hc⟩
  · rw [oldest_empty h, unread_of_count_eq_zero h]; rfl
  · rw [oldest_nonempty hc, unread_eq_cons hc]; rfl

theorem unread_dropOldest (s : State W) : s.dropOldest.unread = s.unread.tail := by
  rcases count_eq_zero_or_succ s with h | ⟨c, hc⟩
  · rw [dropOldest_empty h, unread_of_count_eq_zero h]; rfl
  · rw [dropOldest_nonempty hc, unread_eq_cons hc]; rfl

/-! Runs of PUSHes (R143, R144): the last seven of the bytes unread before and the bytes pushed. -/

theorem execAll_pushes (vs : List Byte) (s : State) :
    execAll (vs.map .push) s = .next (vs.foldl State.pushByte s) := by
  induction vs generalizing s with
  | nil => rfl
  | cons v vs ih => exact (execAll_cons rfl).trans (ih (s.pushByte v))

theorem foldl_pushByte_observed (vs : List Byte) (s : State W) :
    (vs.foldl State.pushByte s).observed = s.observed := by
  induction vs generalizing s with
  | nil => rfl
  | cons v vs ih => exact ih (s.pushByte v)

theorem unread_foldl_pushByte (vs : List Byte) (s : State W) :
    (vs.foldl State.pushByte s).unread = lastSeven (s.unread ++ vs) := by
  induction vs generalizing s with
  | nil => rw [List.append_nil, lastSeven_of_length_le (length_unread_le s)]; rfl
  | cons v vs ih =>
    rw [List.foldl_cons, ih, unread_pushByte_eq_lastSeven, lastSeven_append, List.append_assoc]
    rfl

theorem lastSeven_append_of_le_length (l : List Byte) {m : List Byte} (h : 7 ≤ m.length) :
    lastSeven (l ++ m) = m.drop (m.length - 7) := by
  rw [lastSeven, List.length_append, Nat.add_sub_assoc h, List.drop_length_add_append]

/-! Runs of READs (R143, R145). -/

theorem exec_read_empty {s : State} (h : s.count = 0) : exec .read s = .next (s.observe (.readByte 0)) := by
  have hread : exec .read s = .next (s.dropOldest.observe (.readByte s.oldest)) := rfl
  rw [hread, dropOldest_empty h, oldest_empty h]

theorem execAll_reads_empty (n : Nat) {s : State} (h : s.count = 0) :
    execAll (List.replicate n .read) s =
      .next { s with observed := s.observed ++ List.replicate n (.readByte 0) } := by
  induction n generalizing s with
  | zero => simp [execAll]
  | succ n ih =>
    rw [List.replicate_succ, execAll_cons (exec_read_empty h), ih (s := s.observe _) h, State.observe_observed,
      List.append_assoc]
    rfl

/-- As many READs as there are unread bytes return them, oldest first, and `k` more return the sentinel; no slot is
written. -/
theorem execAll_reads {n : Nat} (k : Nat) {s : State} (h : s.count.val = n) :
    execAll (List.replicate (n + k) .read) s =
      .next { s with
        count := 0
        observed := s.observed ++ s.unread.map .readByte ++ List.replicate k (.readByte 0) } := by
  induction n generalizing s with
  | zero =>
    have h0 : s.count = 0 := Fin.ext h
    rw [Nat.zero_add, execAll_reads_empty k h0, unread_of_count_eq_zero h0, List.map_nil, List.append_nil, ← h0]
  | succ n ih =>
    obtain ⟨c, hc⟩ := exists_count_eq_succ (s := s) (by omega)
    have hn : c.val = n := by omega
    rw [Nat.add_right_comm, List.replicate_succ, execAll_cons (exec_read_nonempty hc), ih hn, unread_eq_cons hc,
      List.map_cons, List.append_cons]
    rfl

end Sys2Proof.Machine

section
open Sys2Proof Sys2Proof.Machine

/-- Settles O35: slot by slot, the shift moves the unread entries one up, and the value is written to slot 0. -/
theorem pushInsertsAtTheFront : Obligations.PushInsertsAtTheFront := by
  intro v s
  refine ⟨s.pushByte v, rfl, ?front, fun i j hij hj => ?shifted, fun i hi => ?above, pushByte_count_val s v, rfl⟩
  case front => exact (pushByte_read s v 0).trans (if_pos rfl)
  case shifted =>
    have hslot : (⟨i.val - 1, by omega⟩ : Slot) = j := Fin.ext (by simp only; omega)
    rw [pushByte_read, if_neg (by omega), if_pos (by omega), hslot]
  case above => rw [pushByte_read, if_neg (by omega), if_neg (by omega)]

/-- Settles O38: each operation on the queue is the list's own, on the unread bytes. -/
theorem queueRefinesBoundedFifo : Obligations.QueueRefinesBoundedFifo := by
  intro s
  refine ⟨length_unread s, fun v => ⟨s.pushByte v, rfl, ?push⟩, ⟨_, rfl, unread_dropOldest s, ?read⟩,
    ⟨s.observe (.available s.count), rfl, rfl, s.count, (length_unread s).symm, rfl⟩⟩
  case push => rw [unread_pushByte, length_unread]
  case read => rw [← oldest_eq_headD_unread, State.observe_observed, dropOldest_frame]

/-- Settles O39: seven pushes or fewer are all unread, in order; so many READs return them and leave the queue empty. -/
theorem pushedBytesReadBackInOrder : Obligations.PushedBytesReadBackInOrder := by
  intro vs s hs hlen
  obtain ⟨p, hp, hobserved, hunread⟩ : ∃ p, execAll (vs.map .push) s = .next p ∧ p.observed = s.observed ∧
      p.unread = vs := by
    refine ⟨_, execAll_pushes vs s, foldl_pushByte_observed vs s, ?_⟩
    rw [unread_foldl_pushByte, unread_of_count_eq_zero hs, List.nil_append, lastSeven_of_length_le hlen]
  have hcount : p.count.val = vs.length := by rw [← length_unread, hunread]
  have hreads := execAll_reads 1 (s := p.observe (.available p.count)) hcount
  refine ⟨_, Eq.trans ?pushes hreads, ⟨p.count, hcount, ?observed⟩, rfl⟩
  case pushes =>
    rw [List.append_assoc, execAll_append hp]
    exact execAll_cons rfl
  case observed => rw [← hobserved, ← hunread]; rfl

/-- Settles O40: of the bytes unread before and the bytes pushed, the last seven are all pushed ones. -/
theorem queueKeepsTheLastSeven : Obligations.QueueKeepsTheLastSeven := by
  intro vs s hlen
  have hunread := (unread_foldl_pushByte vs s).trans (lastSeven_append_of_le_length s.unread hlen)
  refine ⟨_, execAll_pushes vs s, ?count, hunread⟩
  case count => rw [← length_unread, hunread, List.length_drop, Nat.sub_sub_self hlen]

/-- Settles O41: each READ of an empty queue returns the sentinel and leaves it empty. -/
theorem emptyReadsReturnTheSentinel : Obligations.EmptyReadsReturnTheSentinel :=
  fun n _ => execAll_reads_empty n

/-- Settles O36. -/
theorem availReturnsTheCount : Obligations.AvailReturnsTheCount := fun _ => rfl

/-- Settles O37: READ of an empty queue, and of one that is not. -/
theorem readReturnsTheOldest : Obligations.ReadReturnsTheOldest :=
  fun _ => ⟨exec_read_empty, fun _ => exec_read_nonempty⟩

end

/-! Proofs of the statements on simultaneous arrival (60_exceptions.md R164): a tie is put in one of the two orders of
whole steps, and what the two orders of READ and a completing edge come to. -/

namespace Sys2Proof.Machine

variable {W : Nat}

/-! A tie with exclusion: the two command words stand first among the inputs, in the order drawn. -/

theorem decode_edgeWord (t : Timestamp W) (hW : Config.minTsWidth ≤ W := by decide) :
    decode (edgeWord t) = .ok (.edge t) := decode_of_encode hW rfl

theorem inOrder_cases (edgeFirst : Bool) (w : List Byte) (t : Timestamp W) :
    inOrder edgeFirst w t = [.op (edgeWord t), .op w] ∨ inOrder edgeFirst w t = [.op w, .op (edgeWord t)] := by
  cases edgeFirst with
  | true => exact .inl rfl
  | false => exact .inr rfl

theorem arbitrate_atomic (s : State W) (w : List Byte) (t : Timestamp W) (rest : List (Input W)) :
    s.arbitrate true w t rest =
      { s with inputs := inOrder (Config.freeEdgeFirst s.draws) w t ++ rest, draws := s.draws + 1 } :=
  if_neg fun ⟨htrue, _⟩ => Bool.false_ne_true htrue.symm

theorem step_tie {s : State} {w : List Byte} {t : Timestamp} {rest : List Input} (hs : s.inputs = .tie w t :: rest) :
    step s = .next
      { s with inputs := inOrder (Config.freeEdgeFirst s.draws) w t ++ rest, draws := s.draws + 1 } := by
  rw [← arbitrate_atomic, step, stepWith, hs]

/-! READ and an edge that completes a byte, on an empty queue. -/

/-- The byte that an edge completes with its bit, the seventh (R125). -/
def State.completedByte (s : State W) (t : Timestamp W) : Byte := shiftIn s.shiftRegister (dataBit (s.gap t))

/-- The state a completing edge leaves (R125). -/
def State.afterCompletion (s : State W) (t : Timestamp W) : State W :=
  { s.pushByte (s.completedByte t) with shiftRegister := 0, bitCount := 0, previousEdgeTimestamp := t }

theorem exec_edge_complete {s : State} {t : Timestamp} (hen : s.rxEnabled = true) (hs : s.headerSeen = true)
    (h6 : s.bitCount = 6) (hg : elapsed t s.previousEdgeTimestamp ≤ 15000) :
    exec (.edge t) s = .next (s.afterCompletion t) :=
  congrArg Host.Outcome.next ((takeEdge_data hen (gapClass_data.mpr ⟨hg, hs⟩)).trans (dataEdge_complete h6 t))

section
variable {s : State} (hc : s.count = 0)
include hc

theorem unread_afterCompletion_of_empty (t : Timestamp) : (s.afterCompletion t).unread = [s.completedByte t] := by
  refine (unread_pushByte_eq_lastSeven s (s.completedByte t)).trans ?_
  rw [unread_of_count_eq_zero hc]
  rfl

/-- A READ after the edge returns the byte, and leaves the queue empty again. -/
theorem exec_read_afterCompletion_of_empty (t : Timestamp) :
    exec .read (s.afterCompletion t) =
      .next ({ s.afterCompletion t with count := 0 }.observe (.readByte (s.completedByte t))) := by
  have hcount : (s.afterCompletion t).count.val = (0 : Slot).val + 1 := by
    rw [← length_unread, unread_afterCompletion_of_empty hc]
    rfl
  have hfront : (s.afterCompletion t).buf.read 0 = s.completedByte t :=
    (pushByte_read s (s.completedByte t) 0).trans (if_pos rfl)
  rw [exec_read_nonempty hcount, hfront]

end

end Sys2Proof.Machine

section
open Sys2Proof Sys2Proof.Machine

/-- Settles O8: after the edge READ finds the byte at the front; before it the queue is empty, and what READ leaves
completes the same byte. -/
theorem tiedReadSeesByteOrSentinel : Obligations.TiedReadSeesByteOrSentinel := by
  intro s t hen hc hs h6 hg
  have hread : exec .read s = .next (s.observe (.readByte 0)) := exec_read_empty hc
  have hedge : exec (.edge t) s = .next (s.afterCompletion t) := exec_edge_complete hen hs h6 hg
  have hedge' : exec (.edge t) (s.observe (.readByte 0)) = .next ((s.observe (.readByte 0)).afterCompletion t) :=
    exec_edge_complete hen hs h6 hg
  exact ⟨s.completedByte t, _, _,
    (execAll_cons hedge).trans (execAll_cons (exec_read_afterCompletion_of_empty hc t)),
    (execAll_cons hread).trans (execAll_cons hedge'),
    rfl, rfl, rfl, unread_afterCompletion_of_empty (s := s.observe (.readByte 0)) hc t, rfl, rfl, rfl, rfl⟩

/-- Settles O7: with exclusion a tie is put in the order drawn, which is one of the two. -/
theorem tieTakesEitherOrder : Obligations.TieTakesEitherOrder := by
  intro s w t rest hs
  refine ⟨edgeWord t, _, decode_edgeWord t, step_tie hs, ?order⟩
  case order =>
    rcases inOrder_cases (Config.freeEdgeFirst s.draws) w t with h | h
    · exact .inl (congrArg (· ++ rest) h)
    · exact .inr (congrArg (· ++ rest) h)

end

/-! Proofs of the statements on reset and hazards (70_reset_and_hazards.md): a frame whose first edge is taken for the
header boundary, a frame whose first edge is not delivered, and a READ torn by a completing edge. -/

namespace Sys2Proof.Machine

variable {W : Nat}

/-! The gaps of a frame as bits. -/

theorem headerGap_le (ea : EdgeAt) : ea.headerGap ≤ 15000 := by cases ea <;> decide

/-- Taken for a data gap, the header's is a 1. -/
theorem dataBit_headerGap (ea : EdgeAt) : dataBit ea.headerGap = true := by cases ea <;> rfl

theorem map_dataBit_bitGap (b : Byte) (is : List Nat) : (is.map (bitGap b)).map dataBit = is.map b.getLsbD := by
  rw [List.map_map]
  exact List.map_congr_left fun i _ => dataBit_bitGap b i

theorem bitGaps_le (b : Byte) (is : List Nat) : ∀ g ∈ is.map (bitGap b), g ≤ 15000 :=
  List.forall_mem_map.mpr fun i _ => bitGap_le b i

/-- A 1, and then bits 7 to 2 of a byte, shifted in. -/
theorem foldl_shiftIn_one_upper_bits (b : Byte) :
    (true :: [7, 6, 5, 4, 3, 2].map b.getLsbD).foldl shiftIn 0 = 0x40 ||| (b >>> 2) := by
  revert b
  decide

theorem foldl_shiftIn_lowest_two_bits (b : Byte) : ([1, 0].map b.getLsbD).foldl shiftIn 0 = b &&& 3 := by
  revert b
  decide

theorem foldl_shiftIn_lower_bits (b : Byte) :
    ([6, 5, 4, 3, 2, 1, 0].map b.getLsbD).foldl shiftIn 0 = b &&& 0x7F := by
  revert b
  decide

/-! What the decoder makes of edges that it does not meet at the frame's start. -/

/-- Fewer data gaps than complete a byte leave their bits in the accumulator (R124). -/
theorem foldl_takeEdge_shift (gs : List Nat) {s : State} {n : Fin 8} (hen : s.rxEnabled = true)
    (hs : s.headerSeen = true) (hg : ∀ g ∈ gs, g ≤ 15000) (hn : n.val = s.bitCount.val + gs.length) (hlt : n.val < 7) :
    (edgesFrom s.previousEdgeTimestamp gs).foldl State.takeEdge s = { s with
      shiftRegister := (gs.map dataBit).foldl shiftIn s.shiftRegister
      bitCount := n
      previousEdgeTimestamp := later s.previousEdgeTimestamp gs.sum } := by
  induction gs generalizing s with
  | nil =>
    obtain rfl : n = s.bitCount := Fin.ext hn
    simp [edgesFrom]
  | cons g gs ih =>
    obtain ⟨hg0, hgs⟩ := List.forall_mem_cons.mp hg
    rw [List.length_cons] at hn
    have hne : s.bitCount ≠ 6 := by
      intro h
      have h6 : s.bitCount.val = 6 := congrArg Fin.val h
      omega
    have hval : (s.bitCount + 1).val = s.bitCount.val + 1 := Fin.val_add_one_of_lt' (by omega)
    rw [edgesFrom, List.foldl_cons, takeEdge_gap_shift hen hs hg0 hne, List.sum_cons, ← later_later]
    exact ih (s := { s with
        shiftRegister := shiftIn s.shiftRegister (dataBit g)
        bitCount := s.bitCount + 1
        previousEdgeTimestamp := later s.previousEdgeTimestamp g })
      hen hs hgs (by simp only [hval]; omega)

/-- A frame after a header boundary: the header's gap and bits 7 to 2 make the byte, and bits 1 and 0 are left
accumulated (R193). -/
theorem foldl_takeEdge_frameGaps (ea : EdgeAt) (b : Byte) {s : State} (hen : s.rxEnabled = true)
    (hs : s.headerSeen = true) (hn : s.bitCount = 0) (hsr : s.shiftRegister = 0) :
    (edgesFrom s.previousEdgeTimestamp (frameGaps ea b)).foldl State.takeEdge s =
      { s.pushByte (0x40 ||| (b >>> 2)) with
        shiftRegister := b &&& 3
        bitCount := 2
        previousEdgeTimestamp := later s.previousEdgeTimestamp (frameGaps ea b).sum } := by
  have hsplit : frameGaps ea b = (ea.headerGap :: [7, 6, 5, 4, 3, 2].map (bitGap b)) ++ [1, 0].map (bitGap b) := rfl
  have hbits : (ea.headerGap :: [7, 6, 5, 4, 3, 2].map (bitGap b)).map dataBit =
      true :: [7, 6, 5, 4, 3, 2].map b.getLsbD :=
    congrArg₂ List.cons (dataBit_headerGap ea) (map_dataBit_bitGap b _)
  have hbyte := foldl_takeEdge_byte (ea.headerGap :: [7, 6, 5, 4, 3, 2].map (bitGap b)) hen hs
    (List.forall_mem_cons.mpr ⟨headerGap_le ea, bitGaps_le b _⟩) (by rw [hn]; decide) (by rw [hn]; rfl)
  rw [hbits, hsr, foldl_shiftIn_one_upper_bits] at hbyte
  rw [hsplit, edgesFrom_append, List.foldl_append, hbyte, List.sum_append, ← later_later]
  refine (foldl_takeEdge_shift (n := 2) _ (by exact hen) (by exact hs) (bitGaps_le b [1, 0]) rfl (by decide)).trans ?_
  rw [map_dataBit_bitGap, foldl_shiftIn_lowest_two_bits]

/-- A frame whose first edge is taken for the header boundary (R193). -/
theorem foldl_takeEdge_early_frame (ea : EdgeAt) (t : Timestamp) (b : Byte) {r : State} (hen : r.rxEnabled = true)
    (hs : r.headerSeen = false) (hgap : elapsed (later t ea.firstEdge) r.previousEdgeTimestamp ≤ 15000) :
    (frameEdges ea t b).foldl State.takeEdge r =
      { r.pushByte (0x40 ||| (b >>> 2)) with
        headerSeen := true
        shiftRegister := b &&& 3
        bitCount := 2
        previousEdgeTimestamp := later (later t ea.firstEdge) (frameGaps ea b).sum } := by
  rw [frameEdges, List.foldl_cons, takeEdge_header hen (gapClass_header.mpr ⟨hgap, hs⟩)]
  exact foldl_takeEdge_frameGaps ea b (s := r.headerBoundary (later t ea.firstEdge)) hen rfl rfl rfl

/-- The gaps of bits 6 to 0 after a header boundary make the byte, and nothing is left accumulated. -/
theorem foldl_takeEdge_lower_bitGaps (b : Byte) {s : State} (hen : s.rxEnabled = true) (hs : s.headerSeen = true)
    (hn : s.bitCount = 0) (hsr : s.shiftRegister = 0) :
    (edgesFrom s.previousEdgeTimestamp ([6, 5, 4, 3, 2, 1, 0].map (bitGap b))).foldl State.takeEdge s =
      { s.pushByte (b &&& 0x7F) with
        shiftRegister := 0
        bitCount := 0
        previousEdgeTimestamp := later s.previousEdgeTimestamp ([6, 5, 4, 3, 2, 1, 0].map (bitGap b)).sum } := by
  rw [foldl_takeEdge_byte _ hen hs (bitGaps_le b _) (by rw [hn]; decide) (by rw [hn]; rfl), map_dataBit_bitGap, hsr,
    foldl_shiftIn_lower_bits]

/-- A frame from its second edge on, that edge after a new-frame gap: bit 7's gap is taken for the header's, and bits 6
to 0 make the byte (R195). -/
theorem foldl_takeEdge_midFrame (e : Timestamp) (b : Byte) {r : State} (hen : r.rxEnabled = true)
    (hgap : 15000 < elapsed e r.previousEdgeTimestamp) :
    (e :: edgesFrom e ([7, 6, 5, 4, 3, 2, 1, 0].map (bitGap b))).foldl State.takeEdge r =
      { r.pushByte (b &&& 0x7F) with
        headerSeen := true
        shiftRegister := 0
        bitCount := 0
        previousEdgeTimestamp := later (later e (bitGap b 7)) ([6, 5, 4, 3, 2, 1, 0].map (bitGap b)).sum } := by
  have hheader : (r.newFrame e).takeEdge (later e (bitGap b 7)) = (r.newFrame e).headerBoundary (later e (bitGap b 7)) :=
    takeEdge_gap_header hen rfl (bitGap_le b 7)
  rw [List.foldl_cons, takeEdge_after_newFrame hen hgap, List.map_cons, edgesFrom, List.foldl_cons, hheader]
  exact foldl_takeEdge_lower_bitGaps b (s := (r.newFrame e).headerBoundary (later e (bitGap b 7))) hen rfl rfl rfl

/-! A READ overlapped by a completing edge, without exclusion (R197, U4). -/

theorem edgePushes_iff (s : State W) (t : Timestamp W) :
    s.edgePushes t = true ↔ s.rxEnabled = true ∧ s.gapClass t = .data ∧ s.bitCount = 6 := by
  simp [State.edgePushes, lastBit_iff, and_assoc]

theorem arbitrate_torn {s : State} {t : Timestamp} (h : s.edgePushes t = true) (rest : List Input) :
    s.arbitrate false [0b101] t rest = { s.tornRead t with inputs := rest } := if_pos ⟨rfl, rfl, h⟩

/-- A torn READ leaves what the completing edge does, but for the queue, the observations and the draws. -/
theorem tornRead_complete {s : State W} {t : Timestamp W} (hen : s.rxEnabled = true) (hc : s.gapClass t = .data)
    (h6 : s.bitCount = 6) :
    s.tornRead t = { s with
      buf := Memory.ofSlots (Config.freeSlot s.draws)
      count := Config.freeCount s.draws
      observed := s.observed ++ [.readByte (Config.freeByte s.draws)]
      draws := s.draws + 1
      bitCount := 0
      shiftRegister := 0
      previousEdgeTimestamp := t } := by
  rw [State.tornRead, takeEdge_data hen hc, dataEdge_complete h6]
  rfl

end Sys2Proof.Machine

section
open Sys2Proof Sys2Proof.Machine

/-- Settles O45: the first edge is the header boundary, and the header's gap is the byte's first bit, a 1. -/
theorem earlyFirstEdgeShiftsTheFrame : Obligations.EarlyFirstEdgeShiftsTheFrame := by
  rintro b s t r ea offset edges - hc h rfl hen hs hgap
  rw [channelEdges_send hc h] at hgap ⊢
  refine ⟨_, (execAll_edges _ r).trans (congrArg Host.Outcome.next
    (foldl_takeEdge_early_frame ea _ b hen hs (hgap _ rfl))), ?_, rfl, rfl⟩
  exact unread_pushByte r (0x40 ||| (b >>> 2))

/-- Settles O46: the second edge starts the frame, bit 7's gap is taken for the header's, and the seven bits that are
left make the byte. -/
theorem midFrameStartQueuesLowBits : Obligations.MidFrameStartQueuesLowBits := by
  rintro b s t r ea offset e₀ edges - hc h hedges hen hgap
  rw [channelEdges_send hc h] at hedges
  obtain ⟨-, rfl⟩ := List.cons.inj hedges
  refine ⟨_, (execAll_edges _ r).trans (congrArg Host.Outcome.next
    (foldl_takeEdge_midFrame _ b hen (hgap _ rfl))), ?_, rfl, rfl, rfl⟩
  exact unread_pushByte r (b &&& 0x7F)

/-- Settles O9: the edge completes a byte, so the READ is torn, and the decoder is left as a completion leaves it. -/
theorem tornReadLeavesTheDecoderDefined : Obligations.TornReadLeavesTheDecoderDefined := by
  intro s t rest hen hs h6 hg
  have hc : s.gapClass t = .data := gapClass_data.mpr ⟨hg, hs⟩
  rw [arbitrate_torn ((edgePushes_iff s t).mpr ⟨hen, hc, h6⟩), tornRead_complete hen hc h6]
  exact ⟨_, _, _, rfl⟩

end
